-- ==== Sys2Proof/Word.lean ====
section
/-! DEFINITION. The word types of the core: 32-bit register values and addresses, bytes, register fields (00_scope.md R5, R7). -/

namespace Sys2Proof

/-- A register value, an address or an instruction word: a 32-bit pattern (R7). -/
abbrev Word := BitVec 32

/-- One byte of memory (R20). -/
abbrev Byte := BitVec 8

/-- A general register's number, the 5-bit register field of an instruction (R22, R61). -/
abbrev RegIdx := BitVec 5

end Sys2Proof
end

