-- ==== Sys2Proof/Config.lean ====
section
/-! DEFINITION. What is fixed when the core is constructed (R33), and the free values: what the spec leaves open (R39, D3). -/

namespace Sys2Proof

/-- The configuration of the memory, fixed when it is constructed (R33, D4): `MEM_CAPACITY`, `LOWER_BOUND` and
`UPPER_BOUND`, integers. All three are OPEN parameters of the spec; the constraint they must satisfy is
`Machine.ConfigValid`. -/
structure MemConfig where
  /-- `MEM_CAPACITY`: the number of storage bytes. -/
  capacity : Nat
  /-- `LOWER_BOUND`: the lowest accessible address. -/
  lower : Nat
  /-- `UPPER_BOUND`: the highest accessible address (inclusive). -/
  upper : Nat
deriving DecidableEq, Repr

/-- The spec's reference configuration: capacity 4096, window `[0, 4095]` (D4; 95_test_vectors.md, common setup).
DESIGN CHOICE (log 3): `State.reset` has it, since the parameters are open. -/
def MemConfig.reference : MemConfig := { capacity := 4096, lower := 0, upper := 4095 }

/-- `INIT_MEM`, the byte each address holds until something writes it: "a free draw", fixed for the run (R39, D3,
I10). It has no body, so no proof can rest on its value (log 1). -/
opaque Config.initMem : Nat → Byte

end Sys2Proof
end

