-- ==== Sys2Proof/Machine/State.lean ====
section
/-! DEFINITION. The state of the core (10_state.md R20: pc, registers, memory, "and nothing else"; beside the memory stand the
configuration values it was constructed with, R33), the errors of a step (60_exceptions.md R200), the refusals, and the
state after reset (R36 to R39). -/

namespace Sys2Proof.Machine

/-- The bytes written so far, by the loader or by a store, as (address, byte) pairs in rising order of address. An
address that is not listed has not been written and holds its `INIT_MEM` byte (R39; log 1, log 2). -/
abbrev Memory := List Host.Cell

/-- The whole state (R20). -/
structure State where
  /-- The program counter: between steps, the address of the next instruction to fetch (R26). -/
  pc : Word
  /-- The general registers `x[0..31]` (R22, R25). Index 0 is held because a caller may hand the step a state with
  `x[0]` not 0 (R23); every access goes through `readReg` and `writeReg`. -/
  regs : Vector Word 32
  /-- The memory storage (R20, R33). -/
  mem : Memory
  /-- The configuration the memory was constructed with (R33); no instruction changes it. -/
  config : MemConfig
deriving DecidableEq, Repr

/-- The four errors a step returns (R200), with the fields of R205. Each ends the step with no register, pc or memory
changed (R98, R209), and ends a run (R210, D19). All four are safe: the spec states them. -/
inductive Fault where
  /-- `Fetch(OutOfBounds)` (R201): raised by the fetch of any step whose `n` = 4 bytes at `ipc` are not all in the window. -/
  | fetchOutOfBounds (ipc : Word) (n : Nat)
  /-- `Decode(UnsupportedOpcode)` (R202): raised by decoding a word whose opcode is none of the nine. -/
  | unsupportedOpcode (ipc word : Word)
  /-- `IllegalEncoding` (R203): raised for a supported opcode with a sub-code that names no instruction (R79). -/
  | illegalEncoding (ipc word : Word)
  /-- `Memory(OutOfBounds)` (R204): raised by a load or store whose `n` bytes at `ea` are not all in the window. -/
  | memoryOutOfBounds (ipc ea : Word) (n : Nat)
deriving DecidableEq, Repr

/-- Why a step has no meaning. -/
inductive Refusal where
  /-- An instruction that has no meaning yet; raised only by an arm of `exec`. Safe. -/
  | notModelled (mnemonic : String)
  /-- The state's configuration breaks R33's constraint: "The model refuses a configuration that breaks this
  constraint" (R33, D4, I24; log 4). Raised by `step`. Safe. -/
  | invalidConfiguration
deriving DecidableEq, Repr

/-- The outcome of a step or of an instruction: `Ok(next)`, `Err(kind)`, or a refusal (R90, R200). -/
abbrev Result := Host.Outcome State Fault Refusal

/-- The machine right after reset: pc 0 (R37), every register 0 (R38), no byte written (R39), the reference configuration
(DESIGN CHOICE, log 3). No image is loaded (log 5). -/
def State.reset : State :=
  { pc := 0#32, regs := Vector.replicate 32 0#32, mem := [], config := MemConfig.reference }

end Sys2Proof.Machine
end

