-- ==== Sys2Proof/Machine/Flags.lean ====
section
/-! DEFINITION. The core has no flags or condition codes (10_state.md R30): a comparison writes a general register or decides a
branch. Here are the comparisons (00_scope.md R7). -/

namespace Sys2Proof.Machine

/-- `a <s b`: signed less-than (R7). -/
def lessSigned (a b : Word) : Bool := a.slt b

/-- `a <u b`: unsigned less-than (R7). -/
def lessUnsigned (a b : Word) : Bool := a.ult b

/-- `c ? 1 : 0`, the result of the set-less-than instructions (R104, R105, R122, R123). -/
def boolWord (c : Bool) : Word := if c then 1#32 else 0#32

end Sys2Proof.Machine
end

