-- ==== Sys2Proof/Syntax.lean ====
section
/-! DEFINITION. The syntax: one constructor per row of spec/opcode_table.json (30_encoding.md R89), with the operands of R86.
Immediates are the raw patterns of their natural width (R70 to R74); LUI and AUIPC carry `imm20 = word[31:12]`. -/

namespace Sys2Proof

/-- An instruction of the core (R2: exactly these 37). -/
inductive Instr where
  | lui (rd : RegIdx) (imm20 : BitVec 20)
  | auipc (rd : RegIdx) (imm20 : BitVec 20)
  | jal (rd : RegIdx) (imm21 : BitVec 21)
  | jalr (rd rs1 : RegIdx) (imm12 : BitVec 12)
  | beq (rs1 rs2 : RegIdx) (imm13 : BitVec 13)
  | bne (rs1 rs2 : RegIdx) (imm13 : BitVec 13)
  | blt (rs1 rs2 : RegIdx) (imm13 : BitVec 13)
  | bge (rs1 rs2 : RegIdx) (imm13 : BitVec 13)
  | bltu (rs1 rs2 : RegIdx) (imm13 : BitVec 13)
  | bgeu (rs1 rs2 : RegIdx) (imm13 : BitVec 13)
  | lb (rd rs1 : RegIdx) (imm12 : BitVec 12)
  | lh (rd rs1 : RegIdx) (imm12 : BitVec 12)
  | lw (rd rs1 : RegIdx) (imm12 : BitVec 12)
  | lbu (rd rs1 : RegIdx) (imm12 : BitVec 12)
  | lhu (rd rs1 : RegIdx) (imm12 : BitVec 12)
  | sb (rs1 rs2 : RegIdx) (imm12 : BitVec 12)
  | sh (rs1 rs2 : RegIdx) (imm12 : BitVec 12)
  | sw (rs1 rs2 : RegIdx) (imm12 : BitVec 12)
  | addi (rd rs1 : RegIdx) (imm12 : BitVec 12)
  | slti (rd rs1 : RegIdx) (imm12 : BitVec 12)
  | sltiu (rd rs1 : RegIdx) (imm12 : BitVec 12)
  | xori (rd rs1 : RegIdx) (imm12 : BitVec 12)
  | ori (rd rs1 : RegIdx) (imm12 : BitVec 12)
  | andi (rd rs1 : RegIdx) (imm12 : BitVec 12)
  | slli (rd rs1 : RegIdx) (shamt : BitVec 5)
  | srli (rd rs1 : RegIdx) (shamt : BitVec 5)
  | srai (rd rs1 : RegIdx) (shamt : BitVec 5)
  | add (rd rs1 rs2 : RegIdx)
  | sub (rd rs1 rs2 : RegIdx)
  | sll (rd rs1 rs2 : RegIdx)
  | slt (rd rs1 rs2 : RegIdx)
  | sltu (rd rs1 rs2 : RegIdx)
  | xor (rd rs1 rs2 : RegIdx)
  | srl (rd rs1 rs2 : RegIdx)
  | sra (rd rs1 rs2 : RegIdx)
  | or (rd rs1 rs2 : RegIdx)
  | and (rd rs1 rs2 : RegIdx)
deriving DecidableEq, Repr

end Sys2Proof
end

