-- ==== Sys2Proof/WellFormed.lean ====
section
/-! DEFINITION. Which terms of `Instr` an encoding can hold. Only a branch's and JAL's immediate can be ill-formed: bit 0 of
`imm13` and of `imm21` is always 0 (R72, R74). Every other operand fills its field. -/

namespace Sys2Proof

/-- An instruction is well-formed when its branch or jump offset is even (R72, R74). -/
def Instr.wellFormed : Instr → Bool
  | .jal _ imm21 => !imm21.getLsbD 0
  | .beq _ _ imm13 => !imm13.getLsbD 0
  | .bne _ _ imm13 => !imm13.getLsbD 0
  | .blt _ _ imm13 => !imm13.getLsbD 0
  | .bge _ _ imm13 => !imm13.getLsbD 0
  | .bltu _ _ imm13 => !imm13.getLsbD 0
  | .bgeu _ _ imm13 => !imm13.getLsbD 0
  | .lui _ _ | .auipc _ _ => true
  | .jalr _ _ _ => true
  | .lb _ _ _ | .lh _ _ _ | .lw _ _ _ | .lbu _ _ _ | .lhu _ _ _ => true
  | .sb _ _ _ | .sh _ _ _ | .sw _ _ _ => true
  | .addi _ _ _ | .slti _ _ _ | .sltiu _ _ _ | .xori _ _ _ | .ori _ _ _ | .andi _ _ _ => true
  | .slli _ _ _ | .srli _ _ _ | .srai _ _ _ => true
  | .add _ _ _ | .sub _ _ _ | .sll _ _ _ | .slt _ _ _ | .sltu _ _ _ => true
  | .xor _ _ _ | .srl _ _ _ | .sra _ _ _ | .or _ _ _ | .and _ _ _ => true

end Sys2Proof
end

