-- ==== Sys2Proof/Decode.lean ====
section
/-! DEFINITION. Decoding, in the two stages of the spec, and the encoder written from the same formats.
Stage one is the decoder proper: the opcode alone picks the format (30_encoding.md R68), and the record holds exactly the
fields of R69, with the detangled immediates of R70 to R74. Stage two is the execute unit's selection of the
instruction by funct3 and funct7; a record whose sub-code names no instruction is `IllegalEncoding` (R79). -/

namespace Sys2Proof

/-! ### Fields (R61) -/

/-- The opcode, `word[6:0]` (R61). -/
def opcodeField (w : Word) : BitVec 7 := w.extractLsb' 0 7

/-- `rd = word[11:7]` (R61). -/
def rdField (w : Word) : RegIdx := w.extractLsb' 7 5

/-- `funct3 = word[14:12]` (R61). -/
def funct3Field (w : Word) : BitVec 3 := w.extractLsb' 12 3

/-- `rs1 = word[19:15]` (R61). -/
def rs1Field (w : Word) : RegIdx := w.extractLsb' 15 5

/-- `rs2 = word[24:20]` (R61). -/
def rs2Field (w : Word) : RegIdx := w.extractLsb' 20 5

/-- `funct7 = word[31:25]` (R61). -/
def funct7Field (w : Word) : BitVec 7 := w.extractLsb' 25 7

/-! ### The immediate detangler (R70 to R74): raw patterns of natural width -/

/-- I-immediate: `word[31:20]` (R70). -/
def immI (w : Word) : BitVec 12 := w.extractLsb' 20 12

/-- S-immediate: `{ word[31:25], word[11:7] }` (R71). -/
def immS (w : Word) : BitVec 12 := w.extractLsb' 25 7 ++ w.extractLsb' 7 5

/-- B-immediate: `{ word[31], word[7], word[30:25], word[11:8], 0 }` (R72). -/
def immB (w : Word) : BitVec 13 :=
  w.extractLsb' 31 1 ++ w.extractLsb' 7 1 ++ w.extractLsb' 25 6 ++ w.extractLsb' 8 4 ++ 0#1

/-- U-immediate: `{ word[31:12], 0{12} }` (R73). -/
def immU (w : Word) : BitVec 32 := w.extractLsb' 12 20 ++ 0#12

/-- J-immediate: `{ word[31], word[19:12], word[20], word[30:21], 0 }` (R74). -/
def immJ (w : Word) : BitVec 21 :=
  w.extractLsb' 31 1 ++ w.extractLsb' 12 8 ++ w.extractLsb' 20 1 ++ w.extractLsb' 21 10 ++ 0#1

/-! ### Opcodes, formats and the decoded record (R68, R69) -/

/-- The nine opcodes of R68. -/
inductive Opcode where
  | lui | auipc | jal | jalr | branch | load | store | opImm | op
deriving DecidableEq, Repr

/-- The 7-bit value of an opcode (R68). -/
def Opcode.bits : Opcode → BitVec 7
  | .lui => 0b0110111#7
  | .auipc => 0b0010111#7
  | .jal => 0b1101111#7
  | .jalr => 0b1100111#7
  | .branch => 0b1100011#7
  | .load => 0b0000011#7
  | .store => 0b0100011#7
  | .opImm => 0b0010011#7
  | .op => 0b0110011#7

/-- The opcode a 7-bit value stands for; `none` is `UnsupportedOpcode` (R68, R77). -/
def Opcode.ofBits (b : BitVec 7) : Option Opcode :=
  if b = 0b0110111#7 then some .lui
  else if b = 0b0010111#7 then some .auipc
  else if b = 0b1101111#7 then some .jal
  else if b = 0b1100111#7 then some .jalr
  else if b = 0b1100011#7 then some .branch
  else if b = 0b0000011#7 then some .load
  else if b = 0b0100011#7 then some .store
  else if b = 0b0010011#7 then some .opImm
  else if b = 0b0110011#7 then some .op
  else none

/-- The six instruction formats (R62 to R67). -/
inductive Format where
  | r | i | s | b | u | j
deriving DecidableEq, Repr

/-- The format an opcode picks (R68). -/
def Opcode.format : Opcode → Format
  | .lui | .auipc => .u
  | .jal => .j
  | .jalr | .load | .opImm => .i
  | .branch => .b
  | .store => .s
  | .op => .r

/-- The decoded record: the opcode and, for its format, exactly the fields of R69. The OP record has no immediate (R75),
and the JALR record no funct3 (D15). -/
inductive Record where
  | lui (rd : RegIdx) (imm32 : BitVec 32)
  | auipc (rd : RegIdx) (imm32 : BitVec 32)
  | jal (rd : RegIdx) (imm21 : BitVec 21)
  | jalr (rd rs1 : RegIdx) (imm12 : BitVec 12)
  | branch (funct3 : BitVec 3) (rs1 rs2 : RegIdx) (imm13 : BitVec 13)
  | load (funct3 : BitVec 3) (rd rs1 : RegIdx) (imm12 : BitVec 12)
  | store (funct3 : BitVec 3) (rs1 rs2 : RegIdx) (imm12 : BitVec 12)
  | opImm (funct3 : BitVec 3) (rd rs1 : RegIdx) (imm12 : BitVec 12)
  | op (funct3 : BitVec 3) (funct7 : BitVec 7) (rd rs1 rs2 : RegIdx)
deriving DecidableEq, Repr

/-- The opcode stored in a record (R69). -/
def Record.opcode : Record → Opcode
  | .lui _ _ => .lui
  | .auipc _ _ => .auipc
  | .jal _ _ => .jal
  | .jalr _ _ _ => .jalr
  | .branch _ _ _ _ => .branch
  | .load _ _ _ _ => .load
  | .store _ _ _ _ => .store
  | .opImm _ _ _ _ => .opImm
  | .op _ _ _ _ _ => .op

/-- The record of an opcode, its fields taken from the word (R69). -/
def recordOf (w : Word) : Opcode → Record
  | .lui => .lui (rdField w) (immU w)
  | .auipc => .auipc (rdField w) (immU w)
  | .jal => .jal (rdField w) (immJ w)
  | .jalr => .jalr (rdField w) (rs1Field w) (immI w)
  | .branch => .branch (funct3Field w) (rs1Field w) (rs2Field w) (immB w)
  | .load => .load (funct3Field w) (rdField w) (rs1Field w) (immI w)
  | .store => .store (funct3Field w) (rs1Field w) (rs2Field w) (immS w)
  | .opImm => .opImm (funct3Field w) (rdField w) (rs1Field w) (immI w)
  | .op => .op (funct3Field w) (funct7Field w) (rdField w) (rs1Field w) (rs2Field w)

/-- The decoder (R77): a pure, total function of the word; `none` is `UnsupportedOpcode`. -/
def decodeRecord (w : Word) : Option Record :=
  (Opcode.ofBits (opcodeField w)).map (recordOf w)

/-! ### Selecting the instruction of a record (R79 to R83); `none` is `IllegalEncoding` -/

/-- BRANCH: funct3 picks the condition (R81, PRESUMED numbers, log 12); 010 and 011 are illegal (D12, log 14). -/
def selectBranch (funct3 : BitVec 3) (rs1 rs2 : RegIdx) (imm13 : BitVec 13) : Option Instr :=
  if funct3 = 0b000#3 then some (.beq rs1 rs2 imm13)
  else if funct3 = 0b001#3 then some (.bne rs1 rs2 imm13)
  else if funct3 = 0b100#3 then some (.blt rs1 rs2 imm13)
  else if funct3 = 0b101#3 then some (.bge rs1 rs2 imm13)
  else if funct3 = 0b110#3 then some (.bltu rs1 rs2 imm13)
  else if funct3 = 0b111#3 then some (.bgeu rs1 rs2 imm13)
  else none

/-- LOAD: funct3[1:0] is the width, funct3[2] the zero extension of bytes and halfwords; 110 is LW too; 011 and 111 are
illegal (R82, R146). -/
def selectLoad (funct3 : BitVec 3) (rd rs1 : RegIdx) (imm12 : BitVec 12) : Option Instr :=
  if funct3 = 0b000#3 then some (.lb rd rs1 imm12)
  else if funct3 = 0b001#3 then some (.lh rd rs1 imm12)
  else if funct3 = 0b010#3 ∨ funct3 = 0b110#3 then some (.lw rd rs1 imm12)
  else if funct3 = 0b100#3 then some (.lbu rd rs1 imm12)
  else if funct3 = 0b101#3 then some (.lhu rd rs1 imm12)
  else none

/-- STORE: funct3[1:0] is the width, funct3[2] is not read; 011 and 111 are illegal (R83, R151, D13). -/
def selectStore (funct3 : BitVec 3) (rs1 rs2 : RegIdx) (imm12 : BitVec 12) : Option Instr :=
  if funct3 = 0b000#3 ∨ funct3 = 0b100#3 then some (.sb rs1 rs2 imm12)
  else if funct3 = 0b001#3 ∨ funct3 = 0b101#3 then some (.sh rs1 rs2 imm12)
  else if funct3 = 0b010#3 ∨ funct3 = 0b110#3 then some (.sw rs1 rs2 imm12)
  else none

/-- The shift amount of an immediate shift, `imm12[4:0]` (R120, D8). -/
def shamtOf (imm12 : BitVec 12) : BitVec 5 := imm12.extractLsb' 0 5

/-- The checked field of an immediate shift, `imm12[11:5]` (R120, D10). -/
def shiftCheckOf (imm12 : BitVec 12) : BitVec 7 := imm12.extractLsb' 5 7

/-- OP-IMM: funct3 picks the function (R80, R120); the shifts check `imm12[11:5]` (D10). funct3 000 is ADDI whatever
bit 30 holds (D11). -/
def selectOpImm (funct3 : BitVec 3) (rd rs1 : RegIdx) (imm12 : BitVec 12) : Option Instr :=
  if funct3 = 0b000#3 then some (.addi rd rs1 imm12)
  else if funct3 = 0b001#3 then
    if shiftCheckOf imm12 = 0b0000000#7 then some (.slli rd rs1 (shamtOf imm12)) else none
  else if funct3 = 0b010#3 then some (.slti rd rs1 imm12)
  else if funct3 = 0b011#3 then some (.sltiu rd rs1 imm12)
  else if funct3 = 0b100#3 then some (.xori rd rs1 imm12)
  else if funct3 = 0b101#3 then
    if shiftCheckOf imm12 = 0b0000000#7 then some (.srli rd rs1 (shamtOf imm12))
    else if shiftCheckOf imm12 = 0b0100000#7 then some (.srai rd rs1 (shamtOf imm12))
    else none
  else if funct3 = 0b110#3 then some (.ori rd rs1 imm12)
  else some (.andi rd rs1 imm12)

/-- OP with funct7 0000000 (R100). -/
def selectOpPlain (funct3 : BitVec 3) (rd rs1 rs2 : RegIdx) : Instr :=
  if funct3 = 0b000#3 then .add rd rs1 rs2
  else if funct3 = 0b001#3 then .sll rd rs1 rs2
  else if funct3 = 0b010#3 then .slt rd rs1 rs2
  else if funct3 = 0b011#3 then .sltu rd rs1 rs2
  else if funct3 = 0b100#3 then .xor rd rs1 rs2
  else if funct3 = 0b101#3 then .srl rd rs1 rs2
  else if funct3 = 0b110#3 then .or rd rs1 rs2
  else .and rd rs1 rs2

/-- OP: funct7 0000000 for every funct3, 0100000 (math bit 1) for SUB and SRA only; anything else is illegal (R100, D9). -/
def selectOp (funct3 : BitVec 3) (funct7 : BitVec 7) (rd rs1 rs2 : RegIdx) : Option Instr :=
  if funct7 = 0b0000000#7 then some (selectOpPlain funct3 rd rs1 rs2)
  else if funct7 = 0b0100000#7 ∧ funct3 = 0b000#3 then some (.sub rd rs1 rs2)
  else if funct7 = 0b0100000#7 ∧ funct3 = 0b101#3 then some (.sra rd rs1 rs2)
  else none

/-- The instruction of a record, or `none` for a sub-code that names none: `IllegalEncoding` (R79). LUI, AUIPC, JAL and
JALR have no illegal sub-codes. -/
def selectInstr : Record → Option Instr
  | .lui rd imm32 => some (.lui rd (imm32.extractLsb' 12 20))
  | .auipc rd imm32 => some (.auipc rd (imm32.extractLsb' 12 20))
  | .jal rd imm21 => some (.jal rd imm21)
  | .jalr rd rs1 imm12 => some (.jalr rd rs1 imm12)
  | .branch funct3 rs1 rs2 imm13 => selectBranch funct3 rs1 rs2 imm13
  | .load funct3 rd rs1 imm12 => selectLoad funct3 rd rs1 imm12
  | .store funct3 rs1 rs2 imm12 => selectStore funct3 rs1 rs2 imm12
  | .opImm funct3 rd rs1 imm12 => selectOpImm funct3 rd rs1 imm12
  | .op funct3 funct7 rd rs1 rs2 => selectOp funct3 funct7 rd rs1 rs2

/-- Why a word, or a string of bytes, is no instruction. -/
inductive DecodeError where
  /-- `word[6:0]` is none of the nine opcodes (R77, R190). -/
  | unsupportedOpcode
  /-- A supported opcode with a sub-code that names no instruction (R79). -/
  | illegalEncoding
  /-- Fewer than four bytes were given to `decodeBytes`. Every instruction is one 32-bit word (R60); `step` never gives
  fewer, since its fetch reads four bytes or faults (R93). -/
  | truncated
deriving DecidableEq, Repr

/-- Both stages on one word, in the step's order of errors (R208). -/
def decode (w : Word) : Except DecodeError Instr :=
  match decodeRecord w with
  | none => .error .unsupportedOpcode
  | some r =>
    match selectInstr r with
    | none => .error .illegalEncoding
    | some i => .ok i

/-- Four bytes, the one at the lowest address first, as a word: little-endian (R48, R60). -/
def wordOfBytes (b0 b1 b2 b3 : Byte) : Word := b3 ++ b2 ++ b1 ++ b0

/-- The bytes of a word, the one at the lowest address first (R48). -/
def bytesOfWord (w : Word) : List Byte :=
  [w.extractLsb' 0 8, w.extractLsb' 8 8, w.extractLsb' 16 8, w.extractLsb' 24 8]

/-- Decoding from a string of bytes: the instruction and the bytes after it. -/
def decodeBytes : List Byte → Except DecodeError (Instr × List Byte)
  | b0 :: b1 :: b2 :: b3 :: rest =>
    match decode (wordOfBytes b0 b1 b2 b3) with
    | .ok i => .ok (i, rest)
    | .error e => .error e
  | [] | [_] | [_, _] | [_, _, _] => .error .truncated

/-- The instruction the decoder reads from the table's bits `w` of an `nbits`-bit row (log 23). Every row of this table is
one 32-bit word, stored little-endian. -/
def decodeTableWord (nbits w : Nat) : Option Instr :=
  match decodeBytes (bytesOfWord (BitVec.ofNat 32 (w % 2 ^ nbits))) with
  | .ok (i, _) => some i
  | .error _ => none

/-! ### The encoder (R62 to R67, R89)
Where an encoding leaves bits open, the encoder writes 0 there: funct3 of JALR (D15), funct3[2] of LW, SB, SH and SW
(R82, R83). -/

/-- R format (R62). -/
def encodeR (funct7 : BitVec 7) (rs2 rs1 : RegIdx) (funct3 : BitVec 3) (rd : RegIdx) (opcode : BitVec 7) : Word :=
  funct7 ++ rs2 ++ rs1 ++ funct3 ++ rd ++ opcode

/-- I format (R63). -/
def encodeI (imm12 : BitVec 12) (rs1 : RegIdx) (funct3 : BitVec 3) (rd : RegIdx) (opcode : BitVec 7) : Word :=
  imm12 ++ rs1 ++ funct3 ++ rd ++ opcode

/-- S format (R64). -/
def encodeS (imm12 : BitVec 12) (rs2 rs1 : RegIdx) (funct3 : BitVec 3) (opcode : BitVec 7) : Word :=
  imm12.extractLsb' 5 7 ++ rs2 ++ rs1 ++ funct3 ++ imm12.extractLsb' 0 5 ++ opcode

/-- B format (R65). -/
def encodeB (imm13 : BitVec 13) (rs2 rs1 : RegIdx) (funct3 : BitVec 3) (opcode : BitVec 7) : Word :=
  imm13.extractLsb' 12 1 ++ imm13.extractLsb' 5 6 ++ rs2 ++ rs1 ++ funct3 ++ imm13.extractLsb' 1 4 ++
    imm13.extractLsb' 11 1 ++ opcode

/-- U format (R66). -/
def encodeU (imm20 : BitVec 20) (rd : RegIdx) (opcode : BitVec 7) : Word :=
  imm20 ++ rd ++ opcode

/-- J format (R67). -/
def encodeJ (imm21 : BitVec 21) (rd : RegIdx) (opcode : BitVec 7) : Word :=
  imm21.extractLsb' 20 1 ++ imm21.extractLsb' 1 10 ++ imm21.extractLsb' 11 1 ++ imm21.extractLsb' 12 8 ++ rd ++ opcode

/-- The word of an instruction (R89); of a well-formed one, the word that decodes to it. -/
def encode : Instr → Word
  | .lui rd imm20 => encodeU imm20 rd Opcode.lui.bits
  | .auipc rd imm20 => encodeU imm20 rd Opcode.auipc.bits
  | .jal rd imm21 => encodeJ imm21 rd Opcode.jal.bits
  | .jalr rd rs1 imm12 => encodeI imm12 rs1 0b000#3 rd Opcode.jalr.bits
  | .beq rs1 rs2 imm13 => encodeB imm13 rs2 rs1 0b000#3 Opcode.branch.bits
  | .bne rs1 rs2 imm13 => encodeB imm13 rs2 rs1 0b001#3 Opcode.branch.bits
  | .blt rs1 rs2 imm13 => encodeB imm13 rs2 rs1 0b100#3 Opcode.branch.bits
  | .bge rs1 rs2 imm13 => encodeB imm13 rs2 rs1 0b101#3 Opcode.branch.bits
  | .bltu rs1 rs2 imm13 => encodeB imm13 rs2 rs1 0b110#3 Opcode.branch.bits
  | .bgeu rs1 rs2 imm13 => encodeB imm13 rs2 rs1 0b111#3 Opcode.branch.bits
  | .lb rd rs1 imm12 => encodeI imm12 rs1 0b000#3 rd Opcode.load.bits
  | .lh rd rs1 imm12 => encodeI imm12 rs1 0b001#3 rd Opcode.load.bits
  | .lw rd rs1 imm12 => encodeI imm12 rs1 0b010#3 rd Opcode.load.bits
  | .lbu rd rs1 imm12 => encodeI imm12 rs1 0b100#3 rd Opcode.load.bits
  | .lhu rd rs1 imm12 => encodeI imm12 rs1 0b101#3 rd Opcode.load.bits
  | .sb rs1 rs2 imm12 => encodeS imm12 rs2 rs1 0b000#3 Opcode.store.bits
  | .sh rs1 rs2 imm12 => encodeS imm12 rs2 rs1 0b001#3 Opcode.store.bits
  | .sw rs1 rs2 imm12 => encodeS imm12 rs2 rs1 0b010#3 Opcode.store.bits
  | .addi rd rs1 imm12 => encodeI imm12 rs1 0b000#3 rd Opcode.opImm.bits
  | .slti rd rs1 imm12 => encodeI imm12 rs1 0b010#3 rd Opcode.opImm.bits
  | .sltiu rd rs1 imm12 => encodeI imm12 rs1 0b011#3 rd Opcode.opImm.bits
  | .xori rd rs1 imm12 => encodeI imm12 rs1 0b100#3 rd Opcode.opImm.bits
  | .ori rd rs1 imm12 => encodeI imm12 rs1 0b110#3 rd Opcode.opImm.bits
  | .andi rd rs1 imm12 => encodeI imm12 rs1 0b111#3 rd Opcode.opImm.bits
  | .slli rd rs1 shamt => encodeI (0b0000000#7 ++ shamt) rs1 0b001#3 rd Opcode.opImm.bits
  | .srli rd rs1 shamt => encodeI (0b0000000#7 ++ shamt) rs1 0b101#3 rd Opcode.opImm.bits
  | .srai rd rs1 shamt => encodeI (0b0100000#7 ++ shamt) rs1 0b101#3 rd Opcode.opImm.bits
  | .add rd rs1 rs2 => encodeR 0b0000000#7 rs2 rs1 0b000#3 rd Opcode.op.bits
  | .sub rd rs1 rs2 => encodeR 0b0100000#7 rs2 rs1 0b000#3 rd Opcode.op.bits
  | .sll rd rs1 rs2 => encodeR 0b0000000#7 rs2 rs1 0b001#3 rd Opcode.op.bits
  | .slt rd rs1 rs2 => encodeR 0b0000000#7 rs2 rs1 0b010#3 rd Opcode.op.bits
  | .sltu rd rs1 rs2 => encodeR 0b0000000#7 rs2 rs1 0b011#3 rd Opcode.op.bits
  | .xor rd rs1 rs2 => encodeR 0b0000000#7 rs2 rs1 0b100#3 rd Opcode.op.bits
  | .srl rd rs1 rs2 => encodeR 0b0000000#7 rs2 rs1 0b101#3 rd Opcode.op.bits
  | .sra rd rs1 rs2 => encodeR 0b0100000#7 rs2 rs1 0b101#3 rd Opcode.op.bits
  | .or rd rs1 rs2 => encodeR 0b0000000#7 rs2 rs1 0b110#3 rd Opcode.op.bits
  | .and rd rs1 rs2 => encodeR 0b0000000#7 rs2 rs1 0b111#3 rd Opcode.op.bits

/-! ### The opcode table (R89, opcode_table.json) -/

/-- A row's mask and match: a word is the instruction when `word &&& mask = value` (R89). -/
structure TableRow where
  mask : Word
  value : Word
deriving DecidableEq, Repr

/-- A word matches a row (R89). -/
abbrev TableRow.Matches (row : TableRow) (w : Word) : Prop := w &&& row.mask = row.value

/-- The row of an instruction (R89). -/
def Instr.row : Instr → TableRow
  | .lui _ _ => ⟨0x0000007F#32, 0x00000037#32⟩
  | .auipc _ _ => ⟨0x0000007F#32, 0x00000017#32⟩
  | .jal _ _ => ⟨0x0000007F#32, 0x0000006F#32⟩
  | .jalr _ _ _ => ⟨0x0000007F#32, 0x00000067#32⟩
  | .beq _ _ _ => ⟨0x0000707F#32, 0x00000063#32⟩
  | .bne _ _ _ => ⟨0x0000707F#32, 0x00001063#32⟩
  | .blt _ _ _ => ⟨0x0000707F#32, 0x00004063#32⟩
  | .bge _ _ _ => ⟨0x0000707F#32, 0x00005063#32⟩
  | .bltu _ _ _ => ⟨0x0000707F#32, 0x00006063#32⟩
  | .bgeu _ _ _ => ⟨0x0000707F#32, 0x00007063#32⟩
  | .lb _ _ _ => ⟨0x0000707F#32, 0x00000003#32⟩
  | .lh _ _ _ => ⟨0x0000707F#32, 0x00001003#32⟩
  | .lw _ _ _ => ⟨0x0000307F#32, 0x00002003#32⟩
  | .lbu _ _ _ => ⟨0x0000707F#32, 0x00004003#32⟩
  | .lhu _ _ _ => ⟨0x0000707F#32, 0x00005003#32⟩
  | .sb _ _ _ => ⟨0x0000307F#32, 0x00000023#32⟩
  | .sh _ _ _ => ⟨0x0000307F#32, 0x00001023#32⟩
  | .sw _ _ _ => ⟨0x0000307F#32, 0x00002023#32⟩
  | .addi _ _ _ => ⟨0x0000707F#32, 0x00000013#32⟩
  | .slti _ _ _ => ⟨0x0000707F#32, 0x00002013#32⟩
  | .sltiu _ _ _ => ⟨0x0000707F#32, 0x00003013#32⟩
  | .xori _ _ _ => ⟨0x0000707F#32, 0x00004013#32⟩
  | .ori _ _ _ => ⟨0x0000707F#32, 0x00006013#32⟩
  | .andi _ _ _ => ⟨0x0000707F#32, 0x00007013#32⟩
  | .slli _ _ _ => ⟨0xFE00707F#32, 0x00001013#32⟩
  | .srli _ _ _ => ⟨0xFE00707F#32, 0x00005013#32⟩
  | .srai _ _ _ => ⟨0xFE00707F#32, 0x40005013#32⟩
  | .add _ _ _ => ⟨0xFE00707F#32, 0x00000033#32⟩
  | .sub _ _ _ => ⟨0xFE00707F#32, 0x40000033#32⟩
  | .sll _ _ _ => ⟨0xFE00707F#32, 0x00001033#32⟩
  | .slt _ _ _ => ⟨0xFE00707F#32, 0x00002033#32⟩
  | .sltu _ _ _ => ⟨0xFE00707F#32, 0x00003033#32⟩
  | .xor _ _ _ => ⟨0xFE00707F#32, 0x00004033#32⟩
  | .srl _ _ _ => ⟨0xFE00707F#32, 0x00005033#32⟩
  | .sra _ _ _ => ⟨0xFE00707F#32, 0x40005033#32⟩
  | .or _ _ _ => ⟨0xFE00707F#32, 0x00006033#32⟩
  | .and _ _ _ => ⟨0xFE00707F#32, 0x00007033#32⟩

/-- The rows of R89 for LUI, AUIPC, JAL, JALR. -/
def tableUpperAndJumps : List TableRow :=
  [⟨0x0000007F#32, 0x00000037#32⟩,
   ⟨0x0000007F#32, 0x00000017#32⟩,
   ⟨0x0000007F#32, 0x0000006F#32⟩,
   ⟨0x0000007F#32, 0x00000067#32⟩]

/-- The rows of R89 for BEQ, BNE, BLT, BGE, BLTU, BGEU. -/
def tableBranches : List TableRow :=
  [⟨0x0000707F#32, 0x00000063#32⟩,
   ⟨0x0000707F#32, 0x00001063#32⟩,
   ⟨0x0000707F#32, 0x00004063#32⟩,
   ⟨0x0000707F#32, 0x00005063#32⟩,
   ⟨0x0000707F#32, 0x00006063#32⟩,
   ⟨0x0000707F#32, 0x00007063#32⟩]

/-- The rows of R89 for LB, LH, LW, LBU, LHU, SB, SH, SW. -/
def tableLoadsAndStores : List TableRow :=
  [⟨0x0000707F#32, 0x00000003#32⟩,
   ⟨0x0000707F#32, 0x00001003#32⟩,
   ⟨0x0000307F#32, 0x00002003#32⟩,
   ⟨0x0000707F#32, 0x00004003#32⟩,
   ⟨0x0000707F#32, 0x00005003#32⟩,
   ⟨0x0000307F#32, 0x00000023#32⟩,
   ⟨0x0000307F#32, 0x00001023#32⟩,
   ⟨0x0000307F#32, 0x00002023#32⟩]

/-- The rows of R89 for ADDI, SLTI, SLTIU, XORI, ORI, ANDI, SLLI, SRLI, SRAI. -/
def tableAluImmediate : List TableRow :=
  [⟨0x0000707F#32, 0x00000013#32⟩,
   ⟨0x0000707F#32, 0x00002013#32⟩,
   ⟨0x0000707F#32, 0x00003013#32⟩,
   ⟨0x0000707F#32, 0x00004013#32⟩,
   ⟨0x0000707F#32, 0x00006013#32⟩,
   ⟨0x0000707F#32, 0x00007013#32⟩,
   ⟨0xFE00707F#32, 0x00001013#32⟩,
   ⟨0xFE00707F#32, 0x00005013#32⟩,
   ⟨0xFE00707F#32, 0x40005013#32⟩]

/-- The rows of R89 for ADD, SUB, SLL, SLT, SLTU, XOR, SRL, SRA, OR, AND. -/
def tableAluRegister : List TableRow :=
  [⟨0xFE00707F#32, 0x00000033#32⟩,
   ⟨0xFE00707F#32, 0x40000033#32⟩,
   ⟨0xFE00707F#32, 0x00001033#32⟩,
   ⟨0xFE00707F#32, 0x00002033#32⟩,
   ⟨0xFE00707F#32, 0x00003033#32⟩,
   ⟨0xFE00707F#32, 0x00004033#32⟩,
   ⟨0xFE00707F#32, 0x00005033#32⟩,
   ⟨0xFE00707F#32, 0x40005033#32⟩,
   ⟨0xFE00707F#32, 0x00006033#32⟩,
   ⟨0xFE00707F#32, 0x00007033#32⟩]

/-- The 37 rows of R89, in its order. -/
def opcodeTable : List TableRow :=
  tableUpperAndJumps ++ tableBranches ++ tableLoadsAndStores ++ tableAluImmediate ++ tableAluRegister

end Sys2Proof
end

