-- ==== Sys2Proof/Machine/Ops.lean ====
section
/-! DEFINITION. The operations every meaning is built from: registers, memory bytes, the window check and the checked accesses
(20_memory.md R41 to R46), raising an error (60_exceptions.md R209), completing an instruction
(40_execution_engine.md R96, R97), the fetch (R93), and construction with the loader's unchecked write (R54, R230).

Taking an exception: this core has no handler, saved pc, vector or mode. "When an error is raised, the step stops and
returns Err(kind)" (R209), and there is no trap return (R211). So `raise` is the whole of error entry. -/

namespace Sys2Proof.Machine

/-! ### Registers (R22, R23) -/

/-- Reading `x[r]`: `x[0]` is always 0 (R22, R92). -/
def readReg (s : State) (r : RegIdx) : Word :=
  if r = 0#5 then 0#32 else s.regs[r.toNat]'r.isLt

/-- Writing `x[rd]`: a write to `x[0]` is discarded (R22). -/
def writeReg (s : State) (rd : RegIdx) (v : Word) : State :=
  if rd = 0#5 then s else { s with regs := s.regs.set rd.toNat v rd.isLt }

/-- "Force `next.registers[0] = 0`": what a step does before it reads anything (R92) and again after the instruction
(R96). -/
def forceZero (s : State) : State :=
  { s with regs := s.regs.set 0 0#32 }

/-- Setting the pc. -/
def setPc (s : State) (target : Word) : State :=
  { s with pc := target }

/-- `ipc + 4`, modulo 2^32: the address of the next instruction in sequence (R27, R28). -/
def nextPc (s : State) : Word := s.pc + 4#32

/-! ### Memory bytes -/

/-- The byte written at an address, if something has written it. -/
def Memory.get : Memory → Nat → Option Byte
  | [], _ => none
  | (k, b) :: m, a => if a = k then some b else Memory.get m a

/-- Writing one byte; the list stays in rising order of address. -/
def Memory.set : Memory → Nat → Byte → Memory
  | [], a, v => [(a, v)]
  | (k, b) :: m, a, v =>
    if a < k then (a, v) :: (k, b) :: m
    else if a = k then (a, v) :: m
    else (k, b) :: Memory.set m a v

/-- The canonical form: addresses strictly rising (log 2). -/
abbrev Memory.wf (m : Memory) : Prop := m.Pairwise (fun c d => c.1 < d.1)

/-- Every written byte is a storage byte, `mem[0..MEM_CAPACITY-1]` (R33). -/
abbrev Memory.Within (m : Memory) (capacity : Nat) : Prop := ∀ c ∈ m, c.1 < capacity

/-- What an address that nothing has written reads as: its `INIT_MEM` byte, a free value (R39, D3; log 1). -/
def unwrittenByte (a : Nat) : Byte := Config.initMem a

/-- The storage byte `mem[a]` (R12). -/
def byteAt (s : State) (a : Nat) : Byte := (Memory.get s.mem a).getD (unwrittenByte a)

/-! ### The window check and the checked accesses (R41 to R46) -/

/-- The constraint a configuration must satisfy:
`0 <= LOWER_BOUND <= UPPER_BOUND <= MEM_CAPACITY - 1 <= 2^32 - 1` (R33, D4). -/
abbrev ConfigValid (c : MemConfig) : Prop :=
  c.lower ≤ c.upper ∧ c.upper < c.capacity ∧ c.capacity ≤ 2 ^ 32

/-- `InWindow(a, n)` (R41): on unbounded integers, not modulo 2^32 (D5, log 17). -/
abbrev InWindow (c : MemConfig) (a : Word) (n : Nat) : Prop :=
  c.lower ≤ a.toNat ∧ a.toNat + n - 1 ≤ c.upper

/-- The loop of `MemRead`: the `n` bytes at `a`, the lowest address least significant, zero-extended (R42, R47). -/
def loadLE (s : State) (a : Nat) : Nat → Word
  | 0 => 0#32
  | n + 1 => loadLE s a n ||| ((byteAt s (a + n)).setWidth 32 <<< (8 * n))

/-- Byte `i` of a value: `v[8*i+7 : 8*i]` (R43). -/
def byteOf (v : Word) (i : Nat) : Byte := v.extractLsb' (8 * i) 8

/-- The loop of `MemWrite`: `mem[a + i] <- v[8*i+7 : 8*i]` for `i` in `0 .. n-1` (R43, R47). -/
def storeLE (m : Memory) (a : Nat) (v : Word) : Nat → Memory
  | 0 => m
  | n + 1 => Memory.set (storeLE m a v n) (a + n) (byteOf v n)

/-- `MemRead(a, n)`, the checked load (R42); `none` is `OutOfBounds`, and then no byte is read (R44). -/
def memRead (s : State) (a : Word) (n : Nat) : Option Word :=
  if InWindow s.config a n then some (loadLE s a.toNat n) else none

/-- `MemWrite(a, n, v)`, the checked store (R43); `none` is `OutOfBounds`, and then no byte is written (R44). -/
def memWrite (s : State) (a : Word) (n : Nat) (v : Word) : Option State :=
  if InWindow s.config a n then some { s with mem := storeLE s.mem a.toNat v n } else none

/-! ### Errors and completion -/

/-- Error entry (R13, R209): the step ends with the error. Nothing is saved, written or vectored; the state the caller
holds is the state before the instruction. -/
def raise (e : Fault) : Result := .fault e

/-- The code of an error (R200, D17; labels only, log 7). -/
def Fault.code : Fault → Nat
  | .fetchOutOfBounds _ _ => 1
  | .unsupportedOpcode _ _ => 2
  | .illegalEncoding _ _ => 3
  | .memoryOutOfBounds _ _ _ => 4

/-- The code of an outcome: 0 for `Ok(next)` (R200). A refusal has none: the spec gives no such outcome. -/
def outcomeCode : Result → Option Nat
  | .next _ => some 0
  | .fault e => some e.code
  | .refused _ => none

/-- Completing an instruction that writes `x[rd]` and sets the pc (R95, R97). -/
def completeWrite (rd : RegIdx) (v target : Word) (s : State) : Result :=
  .next (setPc (writeReg s rd v) target)

/-- Completing an instruction that writes no register (R97). -/
def completePlain (target : Word) (s : State) : Result :=
  .next (setPc s target)

/-- The last force of a step: `x[0]` is 0 in the next state (R96). -/
def retire : Result → Result
  | .next t => .next (forceZero t)
  | .fault e => .fault e
  | .refused r => .refused r

/-! ### Fetch and decode (R93, R94) -/

/-- The instruction word at the pc: a checked, little-endian four-byte load, with no alignment check (R93). -/
def fetchWord (s : State) : Option Word := memRead s s.pc 4

/-- Fetch, decode and selection, the errors in step order (R208). -/
def fetchInstr (s : State) : Except Fault Instr :=
  match fetchWord s with
  | none => .error (.fetchOutOfBounds s.pc 4)
  | some w =>
    match decode w with
    | .ok i => .ok i
    | .error .illegalEncoding => .error (.illegalEncoding s.pc w)
    | .error .unsupportedOpcode | .error .truncated => .error (.unsupportedOpcode s.pc w)

/-! ### Construction (R230) and the loader (R54) -/

/-- Writing a string of bytes from address `a` on, unchecked. -/
def Memory.setBytes : Memory → Nat → List Byte → Memory
  | m, _, [] => m
  | m, a, b :: bs => Memory.setBytes (Memory.set m a b) (a + 1) bs

/-- `BulkInit(IMAGE)` (R54): `mem[i] <- IMAGE[i]`, whatever the window; an image longer than the capacity is refused
(D21, log 19). -/
def bulkInit (c : MemConfig) (image : List Byte) (m : Memory) : Option Memory :=
  if image.length ≤ c.capacity then some (Memory.setBytes m 0 image) else none

/-- The construction sequence (R230): a memory with nothing written, the image, then the state with pc and registers 0.
`none` is a configuration or an image the model refuses (R33, D4, D21). -/
def construct (c : MemConfig) (image : List Byte) : Option State :=
  if ConfigValid c then
    match bulkInit c image [] with
    | some m => some { pc := 0#32, regs := Vector.replicate 32 0#32, mem := m, config := c }
    | none => none
  else none

/-- A state with the bytes of `w` placed at the pc, unchecked, as the loader places an image. -/
def placeWord (s : State) (w : Word) : State :=
  { s with mem := Memory.setBytes s.mem s.pc.toNat (bytesOfWord w) }

end Sys2Proof.Machine
end

