-- ==== Sys2Proof/Machine/Operands.lean ====
section
/-! DEFINITION. The operand forms: how each immediate is extended before use (30_encoding.md R76), the shift amounts (D8), the
effective address of a load or store (R140, R147), and the targets of branches and jumps (R170, R178, R179). -/

namespace Sys2Proof.Machine

/-- `sext_12(imm12)` (R8, R76): every I- and S-immediate but SLTIU's and the shifts'. -/
def sext12 (imm12 : BitVec 12) : Word := imm12.signExtend 32

/-- `zext_12(imm12)` (R9, R76): SLTIU only (R123, C10; log 21). -/
def zext12 (imm12 : BitVec 12) : Word := imm12.setWidth 32

/-- `sext_13(imm13)` (R76): branches. -/
def sext13 (imm13 : BitVec 13) : Word := imm13.signExtend 32

/-- `sext_21(imm21)` (R76): JAL. -/
def sext21 (imm21 : BitVec 21) : Word := imm21.signExtend 32

/-- `imm32 = { imm20, 0{12} }` (R73): LUI and AUIPC. -/
def upperImm (imm20 : BitVec 20) : Word := imm20 ++ 0#12

/-- The amount of a register shift, `x[rs2][4:0]` (R100, D8; log 10). -/
def shiftAmount (v : Word) : Nat := (v.extractLsb' 0 5).toNat

/-- `sext_8` of a loaded byte (R8, R140). -/
def sextByte (v : Word) : Word := (v.extractLsb' 0 8).signExtend 32

/-- `sext_16` of a loaded halfword (R8, R140). -/
def sextHalf (v : Word) : Word := (v.extractLsb' 0 16).signExtend 32

/-- The effective address of a load or store, `x[rs1] + sext_12(imm12)` modulo 2^32 (R140, R147). -/
def effectiveAddress (s : State) (rs1 : RegIdx) (imm12 : BitVec 12) : Word :=
  readReg s rs1 + sext12 imm12

/-- A branch's target, `ipc + sext_13(imm13)` (R170, R99). -/
def branchTarget (s : State) (imm13 : BitVec 13) : Word := s.pc + sext13 imm13

/-- JAL's target, `ipc + sext_21(imm21)` (R178, R99). -/
def jalTarget (s : State) (imm21 : BitVec 21) : Word := s.pc + sext21 imm21

/-- JALR's target, `(x[rs1] + sext_12(imm12)) & 0xFFFFFFFE`, from the value of `x[rs1]` before `x[rd]` is written
(R179, D14; log 16). -/
def jalrTarget (s : State) (rs1 : RegIdx) (imm12 : BitVec 12) : Word :=
  (readReg s rs1 + sext12 imm12) &&& 0xFFFFFFFE#32

end Sys2Proof.Machine
end

