-- ==== Sys2Proof/Machine/AluImmediate.lean ====
section
/-! DEFINITION. Register-immediate ALU instructions, opcode OP-IMM (42_alu_immediate.md). -/

namespace Sys2Proof.Machine

/-- What the nine share (R120): the operand `x[rs1]` is its value at the start of the step (R91), the result goes to
`x[rd]`, and the pc advances by 4. -/
def aluImmediate (f : Word → Word) (rd rs1 : RegIdx) (s : State) : Result :=
  completeWrite rd (f (readReg s rs1)) (nextPc s) s

/-- ADDI (R121): `x[rd] <- x[rs1] + sext_12(imm12)` modulo 2^32 (bit 30 is immediate bit 10, D11). -/
def execAddi (rd rs1 : RegIdx) (imm12 : BitVec 12) (s : State) : Result :=
  aluImmediate (fun a => a + sext12 imm12) rd rs1 s

/-- SLTI (R122): `x[rd] <- (x[rs1] <s sext_12(imm12)) ? 1 : 0`. -/
def execSlti (rd rs1 : RegIdx) (imm12 : BitVec 12) (s : State) : Result :=
  aluImmediate (fun a => boolWord (lessSigned a (sext12 imm12))) rd rs1 s

/-- SLTIU (R123): `x[rd] <- (x[rs1] <u zext_12(imm12)) ? 1 : 0`, the immediate zero-extended (C10, log 21). -/
def execSltiu (rd rs1 : RegIdx) (imm12 : BitVec 12) (s : State) : Result :=
  aluImmediate (fun a => boolWord (lessUnsigned a (zext12 imm12))) rd rs1 s

/-- XORI (R124): `x[rd] <- x[rs1] ^ sext_12(imm12)`. -/
def execXori (rd rs1 : RegIdx) (imm12 : BitVec 12) (s : State) : Result :=
  aluImmediate (fun a => a ^^^ sext12 imm12) rd rs1 s

/-- ORI (R125): `x[rd] <- x[rs1] | sext_12(imm12)`. -/
def execOri (rd rs1 : RegIdx) (imm12 : BitVec 12) (s : State) : Result :=
  aluImmediate (fun a => a ||| sext12 imm12) rd rs1 s

/-- ANDI (R126): `x[rd] <- x[rs1] & sext_12(imm12)`. -/
def execAndi (rd rs1 : RegIdx) (imm12 : BitVec 12) (s : State) : Result :=
  aluImmediate (fun a => a &&& sext12 imm12) rd rs1 s

/-- SLLI (R127): `x[rd] <- x[rs1] << shamt`. -/
def execSlli (rd rs1 : RegIdx) (shamt : BitVec 5) (s : State) : Result :=
  aluImmediate (fun a => a <<< shamt.toNat) rd rs1 s

/-- SRLI (R128): `x[rd] <- x[rs1] >>u shamt`. -/
def execSrli (rd rs1 : RegIdx) (shamt : BitVec 5) (s : State) : Result :=
  aluImmediate (fun a => a >>> shamt.toNat) rd rs1 s

/-- SRAI (R129): `x[rd] <- x[rs1] >>s shamt`. -/
def execSrai (rd rs1 : RegIdx) (shamt : BitVec 5) (s : State) : Result :=
  aluImmediate (fun a => a.sshiftRight shamt.toNat) rd rs1 s

end Sys2Proof.Machine
end

