-- ==== Sys2Proof/Machine/AluRegister.lean ====
section
/-! DEFINITION. Register-register ALU instructions, opcode OP (41_alu_register.md). -/

namespace Sys2Proof.Machine

/-- What the ten share (R100): both operands are the values at the start of the step (R91), the result goes to `x[rd]`, and
the pc advances by 4. -/
def aluRegister (f : Word → Word → Word) (rd rs1 rs2 : RegIdx) (s : State) : Result :=
  completeWrite rd (f (readReg s rs1) (readReg s rs2)) (nextPc s) s

/-- ADD (R101): `x[rd] <- x[rs1] + x[rs2]` modulo 2^32. -/
def execAdd (rd rs1 rs2 : RegIdx) (s : State) : Result :=
  aluRegister (fun a b => a + b) rd rs1 rs2 s

/-- SUB (R102): `x[rd] <- x[rs1] - x[rs2]` modulo 2^32. -/
def execSub (rd rs1 rs2 : RegIdx) (s : State) : Result :=
  aluRegister (fun a b => a - b) rd rs1 rs2 s

/-- SLL (R103): `x[rd] <- x[rs1] << x[rs2][4:0]`. -/
def execSll (rd rs1 rs2 : RegIdx) (s : State) : Result :=
  aluRegister (fun a b => a <<< shiftAmount b) rd rs1 rs2 s

/-- SLT (R104): `x[rd] <- (x[rs1] <s x[rs2]) ? 1 : 0`. -/
def execSlt (rd rs1 rs2 : RegIdx) (s : State) : Result :=
  aluRegister (fun a b => boolWord (lessSigned a b)) rd rs1 rs2 s

/-- SLTU (R105): `x[rd] <- (x[rs1] <u x[rs2]) ? 1 : 0`. -/
def execSltu (rd rs1 rs2 : RegIdx) (s : State) : Result :=
  aluRegister (fun a b => boolWord (lessUnsigned a b)) rd rs1 rs2 s

/-- XOR (R106): `x[rd] <- x[rs1] ^ x[rs2]`. -/
def execXor (rd rs1 rs2 : RegIdx) (s : State) : Result :=
  aluRegister (fun a b => a ^^^ b) rd rs1 rs2 s

/-- SRL (R107): `x[rd] <- x[rs1] >>u x[rs2][4:0]`. -/
def execSrl (rd rs1 rs2 : RegIdx) (s : State) : Result :=
  aluRegister (fun a b => a >>> shiftAmount b) rd rs1 rs2 s

/-- SRA (R108): `x[rd] <- x[rs1] >>s x[rs2][4:0]`. -/
def execSra (rd rs1 rs2 : RegIdx) (s : State) : Result :=
  aluRegister (fun a b => a.sshiftRight (shiftAmount b)) rd rs1 rs2 s

/-- OR (R109): `x[rd] <- x[rs1] | x[rs2]`. -/
def execOr (rd rs1 rs2 : RegIdx) (s : State) : Result :=
  aluRegister (fun a b => a ||| b) rd rs1 rs2 s

/-- AND (R110): `x[rd] <- x[rs1] & x[rs2]`. -/
def execAnd (rd rs1 rs2 : RegIdx) (s : State) : Result :=
  aluRegister (fun a b => a &&& b) rd rs1 rs2 s

end Sys2Proof.Machine
end

