-- ==== Sys2Proof/Machine/ControlTransfer.lean ====
section
/-! DEFINITION. Branches and jumps (45_control_transfer.md). No target is checked for alignment or against the window: a bad one
fails at the next step's fetch (R180). -/

namespace Sys2Proof.Machine

/-- What the branches share (R170): the target if the condition holds of `x[rs1]` and `x[rs2]`, the next instruction in
sequence otherwise (R97). -/
def branchIf (cond : Word → Word → Bool) (rs1 rs2 : RegIdx) (imm13 : BitVec 13) (s : State) : Result :=
  completePlain (if cond (readReg s rs1) (readReg s rs2) then branchTarget s imm13 else nextPc s) s

/-- What the jumps share (R178, R179): the link `ipc + 4` to `x[rd]`, the pc to the target, which the caller computes from
the state before the link is written. -/
def jumpAndLink (rd : RegIdx) (target : Word) (s : State) : Result :=
  completeWrite rd (nextPc s) target s

/-- BEQ (R171): taken if `x[rs1] == x[rs2]`. -/
def execBeq (rs1 rs2 : RegIdx) (imm13 : BitVec 13) (s : State) : Result :=
  branchIf (fun a b => a == b) rs1 rs2 imm13 s

/-- BNE (R172): taken if `x[rs1] != x[rs2]`. -/
def execBne (rs1 rs2 : RegIdx) (imm13 : BitVec 13) (s : State) : Result :=
  branchIf (fun a b => a != b) rs1 rs2 imm13 s

/-- BLT (R173): taken if `x[rs1] <s x[rs2]`. -/
def execBlt (rs1 rs2 : RegIdx) (imm13 : BitVec 13) (s : State) : Result :=
  branchIf lessSigned rs1 rs2 imm13 s

/-- BGE (R174): taken if `not (x[rs1] <s x[rs2])`. -/
def execBge (rs1 rs2 : RegIdx) (imm13 : BitVec 13) (s : State) : Result :=
  branchIf (fun a b => !lessSigned a b) rs1 rs2 imm13 s

/-- BLTU (R175): taken if `x[rs1] <u x[rs2]`. -/
def execBltu (rs1 rs2 : RegIdx) (imm13 : BitVec 13) (s : State) : Result :=
  branchIf lessUnsigned rs1 rs2 imm13 s

/-- BGEU (R176): taken if `not (x[rs1] <u x[rs2])`. -/
def execBgeu (rs1 rs2 : RegIdx) (imm13 : BitVec 13) (s : State) : Result :=
  branchIf (fun a b => !lessUnsigned a b) rs1 rs2 imm13 s

/-- JAL (R178): `x[rd] <- ipc + 4; pc <- ipc + sext_21(imm21)`. -/
def execJal (rd : RegIdx) (imm21 : BitVec 21) (s : State) : Result :=
  jumpAndLink rd (jalTarget s imm21) s

/-- JALR (R179): `t := (x[rs1] + sext_12(imm12)) & 0xFFFFFFFE; x[rd] <- ipc + 4; pc <- t`. -/
def execJalr (rd rs1 : RegIdx) (imm12 : BitVec 12) (s : State) : Result :=
  jumpAndLink rd (jalrTarget s rs1 imm12) s

end Sys2Proof.Machine
end

