-- ==== Sys2Proof/Machine/LoadStore.lean ====
section
/-! DEFINITION. Loads and stores, opcodes LOAD and STORE (43_load_store.md). -/

namespace Sys2Proof.Machine

/-- What the loads share (R140): the checked read at the effective address, its value extended and written to `x[rd]`, or
`Memory(OutOfBounds)`. The read and its check happen whatever `rd` is (R84). -/
def loadWith (n : Nat) (extend : Word → Word) (rd rs1 : RegIdx) (imm12 : BitVec 12) (s : State) : Result :=
  match memRead s (effectiveAddress s rs1 imm12) n with
  | some v => completeWrite rd (extend v) (nextPc s) s
  | none => raise (.memoryOutOfBounds s.pc (effectiveAddress s rs1 imm12) n)

/-- What the stores share (R147): the checked write of the low `n` bytes of `x[rs2]`, or `Memory(OutOfBounds)` with nothing
written (R44). -/
def storeWith (n : Nat) (rs1 rs2 : RegIdx) (imm12 : BitVec 12) (s : State) : Result :=
  match memWrite s (effectiveAddress s rs1 imm12) n (readReg s rs2) with
  | some t => completePlain (nextPc s) t
  | none => raise (.memoryOutOfBounds s.pc (effectiveAddress s rs1 imm12) n)

/-- LB (R141): `x[rd] <- sext_8(MemRead(ea, 1))`. -/
def execLb (rd rs1 : RegIdx) (imm12 : BitVec 12) (s : State) : Result :=
  loadWith 1 sextByte rd rs1 imm12 s

/-- LH (R142): `x[rd] <- sext_16(MemRead(ea, 2))`. -/
def execLh (rd rs1 : RegIdx) (imm12 : BitVec 12) (s : State) : Result :=
  loadWith 2 sextHalf rd rs1 imm12 s

/-- LW (R143): `x[rd] <- MemRead(ea, 4)`. -/
def execLw (rd rs1 : RegIdx) (imm12 : BitVec 12) (s : State) : Result :=
  loadWith 4 (fun v => v) rd rs1 imm12 s

/-- LBU (R144): `x[rd] <- zext_8(MemRead(ea, 1))` (`MemRead` is already zero-extended, R42). -/
def execLbu (rd rs1 : RegIdx) (imm12 : BitVec 12) (s : State) : Result :=
  loadWith 1 (fun v => v) rd rs1 imm12 s

/-- LHU (R145): `x[rd] <- zext_16(MemRead(ea, 2))` (`MemRead` is already zero-extended, R42). -/
def execLhu (rd rs1 : RegIdx) (imm12 : BitVec 12) (s : State) : Result :=
  loadWith 2 (fun v => v) rd rs1 imm12 s

/-- SB (R148): `MemWrite(ea, 1, x[rs2])`. -/
def execSb (rs1 rs2 : RegIdx) (imm12 : BitVec 12) (s : State) : Result :=
  storeWith 1 rs1 rs2 imm12 s

/-- SH (R149): `MemWrite(ea, 2, x[rs2])`. -/
def execSh (rs1 rs2 : RegIdx) (imm12 : BitVec 12) (s : State) : Result :=
  storeWith 2 rs1 rs2 imm12 s

/-- SW (R150): `MemWrite(ea, 4, x[rs2])`. -/
def execSw (rs1 rs2 : RegIdx) (imm12 : BitVec 12) (s : State) : Result :=
  storeWith 4 rs1 rs2 imm12 s

end Sys2Proof.Machine
end

