-- ==== Sys2Proof/Machine/UpperImmediate.lean ====
section
/-! DEFINITION. LUI and AUIPC (44_upper_immediate.md). -/

namespace Sys2Proof.Machine

/-- LUI (R160): `x[rd] <- imm32`. -/
def execLui (rd : RegIdx) (imm20 : BitVec 20) (s : State) : Result :=
  completeWrite rd (upperImm imm20) (nextPc s) s

/-- AUIPC (R161): `x[rd] <- imm32 + ipc`, `ipc` the address the instruction was fetched from (R99, C3). -/
def execAuipc (rd : RegIdx) (imm20 : BitVec 20) (s : State) : Result :=
  completeWrite rd (upperImm imm20 + s.pc) (nextPc s) s

end Sys2Proof.Machine
end

