-- ==== Sys2Proof/Machine/Step.lean ====
section
/-! DEFINITION. One step (40_execution_engine.md R90): force `x[0]`, fetch, decode, execute, force `x[0]` again; the pc is
updated by the instruction's meaning (R97). -/

namespace Sys2Proof.Machine

/-- The step (R90). A state whose configuration breaks R33's constraint is refused (D4, log 4). -/
def step (s : State) : Host.Outcome State Fault Refusal :=
  if ConfigValid s.config then
    match fetchInstr (forceZero s) with
    | .error e => raise e
    | .ok i => retire (exec i (forceZero s))
  else .refused .invalidConfiguration

/-- `s` with the table's bits `w` of an `nbits`-bit row stored where `step` fetches its next instruction: the four bytes
at the pc (log 23). -/
def State.withFetchWord (s : State) (nbits w : Nat) : State :=
  placeWord s (BitVec.ofNat 32 (w % 2 ^ nbits))

end Sys2Proof.Machine
end

