-- ==== Sys2Proof/Safety.lean ====
section
/-! DEFINITION. The terms claims are stated in: the invariant of the machine, runs and how they end (70_reset_and_hazards.md
R237), and agreement of two states inside the window. -/

namespace Sys2Proof.Machine

/-- The invariant that reset meets and every step keeps. -/
structure State.Inv (s : State) : Prop where
  /-- The configuration satisfies R33's constraint. -/
  config : ConfigValid s.config
  /-- "after every execution step, `registers[0] == 0`" (R22). -/
  zero : s.regs[0] = 0#32
  /-- The written bytes are in canonical form (log 2). -/
  memWf : Memory.wf s.mem
  /-- Every written byte is a storage byte (R33). -/
  memWithin : Memory.Within s.mem s.config.capacity
  /-- "`pc[0]` stays 0 from reset" (R29). -/
  pcEven : s.pc.getLsbD 0 = false

/-- Exactly `n` steps lead from `s` to `t`. -/
def RunsTo (n : Nat) (s t : State) : Prop := Host.Core.run Sys2Proof.core n s = .next t

/-- A run that ends in an error (R237 (a)): `n` steps lead to `t`, the state the run leaves, and the next step returns the
error `e`. An error is never a normal end (R210, D19). -/
def EndsIn (n : Nat) (s t : State) (e : Fault) : Prop := RunsTo n s t ∧ step t = .fault e

/-- A safe run of `n` steps: none of them ends in an error or a refusal. -/
def SafeFor (n : Nat) (s : State) : Prop := ∃ t, RunsTo n s t

/-- Two states that differ at most in the memory bytes outside the window. -/
structure AgreeInWindow (s t : State) : Prop where
  pc : s.pc = t.pc
  regs : s.regs = t.regs
  config : s.config = t.config
  bytes : ∀ a, s.config.lower ≤ a → a ≤ s.config.upper → byteAt s a = byteAt t a

/-- Two outcomes that a program cannot tell apart: the same error or refusal, or next states that agree in the window. -/
def SameOutcome : Result → Result → Prop
  | .next s, .next t => AgreeInWindow s t
  | .fault e, .fault f => e = f
  | .refused p, .refused q => p = q
  | _, _ => False

end Sys2Proof.Machine
end

