-- ==== Sys2Proof/Certificates/Slice0/Obligations.lean ====
section
/-! DEFINITION. The statements for the provers: what the numbered rules of spec/ say the machine does.
Results are written in unbounded integer arithmetic (`BitVec.ofInt`, `BitVec.ofNat` reduce modulo 2^32) where the rule is
arithmetic, so that a statement does not repeat the meaning it is about. -/

open Sys2Proof Sys2Proof.Machine

/-! ### Shapes shared by the statements -/

/-- Every word with these selecting bits decodes to the instruction `f` reads from it (30_encoding.md R89). -/
def Sys2Proof.Claims.Encodes (mask value : Word) (f : Word → Instr) : Prop :=
  ∀ w : Word, w &&& mask = value → decode w = .ok (f w)

/-- Operands of the R format (R62): rd, rs1, rs2. -/
def Sys2Proof.Claims.rType (c : RegIdx → RegIdx → RegIdx → Instr) (w : Word) : Instr :=
  c (w.extractLsb' 7 5) (w.extractLsb' 15 5) (w.extractLsb' 20 5)

/-- Operands of the I format (R63): rd, rs1, imm12. -/
def Sys2Proof.Claims.iType (c : RegIdx → RegIdx → BitVec 12 → Instr) (w : Word) : Instr :=
  c (w.extractLsb' 7 5) (w.extractLsb' 15 5) (w.extractLsb' 20 12)

/-- Operands of an immediate shift (R127): rd, rs1, shamt. -/
def Sys2Proof.Claims.shiftType (c : RegIdx → RegIdx → BitVec 5 → Instr) (w : Word) : Instr :=
  c (w.extractLsb' 7 5) (w.extractLsb' 15 5) (w.extractLsb' 20 5)

/-- Operands of the S format (R64): rs1, rs2, imm12. -/
def Sys2Proof.Claims.sType (c : RegIdx → RegIdx → BitVec 12 → Instr) (w : Word) : Instr :=
  c (w.extractLsb' 15 5) (w.extractLsb' 20 5) (w.extractLsb' 25 7 ++ w.extractLsb' 7 5)

/-- Operands of the B format (R65): rs1, rs2, imm13. -/
def Sys2Proof.Claims.bType (c : RegIdx → RegIdx → BitVec 13 → Instr) (w : Word) : Instr :=
  c (w.extractLsb' 15 5) (w.extractLsb' 20 5)
    (w.extractLsb' 31 1 ++ w.extractLsb' 7 1 ++ w.extractLsb' 25 6 ++ w.extractLsb' 8 4 ++ 0#1)

/-- Operands of the U format (R66): rd, imm20. -/
def Sys2Proof.Claims.uType (c : RegIdx → BitVec 20 → Instr) (w : Word) : Instr :=
  c (w.extractLsb' 7 5) (w.extractLsb' 12 20)

/-- Operands of the J format (R67): rd, imm21. -/
def Sys2Proof.Claims.jType (c : RegIdx → BitVec 21 → Instr) (w : Word) : Instr :=
  c (w.extractLsb' 7 5)
    (w.extractLsb' 31 1 ++ w.extractLsb' 12 8 ++ w.extractLsb' 20 1 ++ w.extractLsb' 21 10 ++ 0#1)

/-- An OP word with this funct3 and a funct7 outside the list is `IllegalEncoding` (41_alu_register.md R100). -/
def Sys2Proof.Claims.OpIllegal (funct3 : Nat) (legal : List Nat) : Prop :=
  ∀ w : Word, w.toNat % 128 = 0x33 → w.toNat / 2 ^ 12 % 8 = funct3 → w.toNat / 2 ^ 25 ∉ legal →
    decode w = .error .illegalEncoding

/-- An OP-IMM word with this funct3 and a `word[31:25]` outside the list is `IllegalEncoding` (42_alu_immediate.md R120). -/
def Sys2Proof.Claims.OpImmIllegal (funct3 : Nat) (legal : List Nat) : Prop :=
  ∀ w : Word, w.toNat % 128 = 0x13 → w.toNat / 2 ^ 12 % 8 = funct3 → w.toNat / 2 ^ 25 ∉ legal →
    decode w = .error .illegalEncoding

/-- The instruction completes with `v` in `x[rd]` (nowhere, if `rd` is `x0`), the pc at `p`, every other register, every
byte and the configuration unchanged. -/
def Sys2Proof.Claims.Writes (i : Instr) (s : State) (rd : RegIdx) (v p : Word) : Prop :=
  ∃ t, exec i s = .next t ∧ t.pc = p ∧
    (∀ r, readReg t r = if r = rd ∧ r ≠ 0#5 then v else readReg s r) ∧
    (∀ a, byteAt t a = byteAt s a) ∧ t.config = s.config

/-- The instruction completes with the pc at `p` and everything else unchanged. -/
def Sys2Proof.Claims.Transfers (i : Instr) (s : State) (p : Word) : Prop :=
  ∃ t, exec i s = .next t ∧ t.pc = p ∧ (∀ r, readReg t r = readReg s r) ∧
    (∀ a, byteAt t a = byteAt s a) ∧ t.config = s.config

/-- The instruction completes with the low `n` bytes of `v` stored little-endian at `a`, the pc advanced by 4, and every
other byte, every register and the configuration unchanged. -/
def Sys2Proof.Claims.Stores (i : Instr) (s : State) (a : Word) (n : Nat) (v : Word) : Prop :=
  ∃ t, exec i s = .next t ∧ t.pc = s.pc + 4#32 ∧ (∀ r, readReg t r = readReg s r) ∧
    (∀ k, k < n → byteAt t (a.toNat + k) = BitVec.ofNat 8 (v.toNat / 2 ^ (8 * k))) ∧
    (∀ x, (x < a.toNat ∨ a.toNat + n ≤ x) → byteAt t x = byteAt s x) ∧ t.config = s.config

/-- The instruction raises `Memory(OutOfBounds)` (R204). What the error carries is `Obligations.ErrorsCarryTheirFields`. -/
def Sys2Proof.Claims.RaisesMemory (i : Instr) (s : State) : Prop :=
  ∃ ipc ea n, exec i s = .fault (.memoryOutOfBounds ipc ea n)

/-- The nine supported opcodes, by value (R68). -/
def Sys2Proof.Claims.supportedOpcodes : List Nat :=
  [0x37, 0x17, 0x6F, 0x67, 0x63, 0x03, 0x23, 0x13, 0x33]

/-- The `IllegalEncoding` space, row by row (R79). -/
def Sys2Proof.Claims.IllegalWord (w : Word) : Prop :=
  let opcode := w.toNat % 128
  let funct3 := w.toNat / 2 ^ 12 % 8
  let funct7 := w.toNat / 2 ^ 25
  (opcode = 0x63 ∧ (funct3 = 2 ∨ funct3 = 3)) ∨
  (opcode = 0x03 ∧ (funct3 = 3 ∨ funct3 = 7)) ∨
  (opcode = 0x23 ∧ (funct3 = 3 ∨ funct3 = 7)) ∨
  (opcode = 0x13 ∧ funct3 = 1 ∧ funct7 ≠ 0) ∨
  (opcode = 0x13 ∧ funct3 = 5 ∧ funct7 ≠ 0 ∧ funct7 ≠ 0x20) ∨
  (opcode = 0x33 ∧ (funct3 = 0 ∨ funct3 = 5) ∧ funct7 ≠ 0 ∧ funct7 ≠ 0x20) ∨
  (opcode = 0x33 ∧ funct3 ≠ 0 ∧ funct3 ≠ 5 ∧ funct7 ≠ 0)

/-- The bits an instruction's encoding leaves open: funct3 of JALR (D15), funct3[2] of LW, SB, SH and SW (R82, R83). -/
def Sys2Proof.Claims.openBits : Instr → Word
  | .jalr _ _ _ => 0x00007000#32
  | .lw _ _ _ | .sb _ _ _ | .sh _ _ _ | .sw _ _ _ => 0x00004000#32
  | _ => 0#32

/-- The register an instruction writes: its own `rd`; a branch or a store has none (files 41 to 45). -/
def Sys2Proof.Claims.destination : Instr → Option RegIdx
  | .lui rd _ | .auipc rd _ | .jal rd _ | .jalr rd _ _ => some rd
  | .lb rd _ _ | .lh rd _ _ | .lw rd _ _ | .lbu rd _ _ | .lhu rd _ _ => some rd
  | .addi rd _ _ | .slti rd _ _ | .sltiu rd _ _ | .xori rd _ _ | .ori rd _ _ | .andi rd _ _ => some rd
  | .slli rd _ _ | .srli rd _ _ | .srai rd _ _ => some rd
  | .add rd _ _ | .sub rd _ _ | .sll rd _ _ | .slt rd _ _ | .sltu rd _ _ | .xor rd _ _ | .srl rd _ _ | .sra rd _ _
  | .or rd _ _ | .and rd _ _ => some rd
  | .beq _ _ _ | .bne _ _ _ | .blt _ _ _ | .bge _ _ _ | .bltu _ _ _ | .bgeu _ _ _ => none
  | .sb _ _ _ | .sh _ _ _ | .sw _ _ _ => none

/-- The address and the number of bytes an instruction stores to: the meaning's own effective address with the width of SB,
SH or SW (R147 to R150); every other instruction stores nothing. -/
def Sys2Proof.Claims.storedTo (i : Instr) (s : State) : Option (Word × Nat) :=
  match i with
  | .sb rs1 _ imm12 => some (effectiveAddress s rs1 imm12, 1)
  | .sh rs1 _ imm12 => some (effectiveAddress s rs1 imm12, 2)
  | .sw rs1 _ imm12 => some (effectiveAddress s rs1 imm12, 4)
  | _ => none

/-- A branch, JAL or JALR: the instructions with a target (R170, R178, R179). -/
def Sys2Proof.Claims.IsTransfer : Instr → Prop
  | .beq _ _ _ | .bne _ _ _ | .blt _ _ _ | .bge _ _ _ | .bltu _ _ _ | .bgeu _ _ _ | .jal _ _ | .jalr _ _ _ => True
  | _ => False

/-- The pc an instruction leaves (R97): the target of a taken branch, of JAL or of JALR, `ipc + 4` otherwise. -/
def Sys2Proof.Claims.pcAfter (i : Instr) (s : State) : Word :=
  let taken (c : Prop) [Decidable c] (imm13 : BitVec 13) : Word :=
    if c then BitVec.ofInt 32 (s.pc.toNat + imm13.toInt) else BitVec.ofNat 32 (s.pc.toNat + 4)
  match i with
  | .beq rs1 rs2 imm13 => taken (readReg s rs1 = readReg s rs2) imm13
  | .bne rs1 rs2 imm13 => taken (readReg s rs1 ≠ readReg s rs2) imm13
  | .blt rs1 rs2 imm13 => taken ((readReg s rs1).toInt < (readReg s rs2).toInt) imm13
  | .bge rs1 rs2 imm13 => taken ((readReg s rs2).toInt ≤ (readReg s rs1).toInt) imm13
  | .bltu rs1 rs2 imm13 => taken ((readReg s rs1).toNat < (readReg s rs2).toNat) imm13
  | .bgeu rs1 rs2 imm13 => taken ((readReg s rs2).toNat ≤ (readReg s rs1).toNat) imm13
  | .jal _ imm21 => BitVec.ofInt 32 (s.pc.toNat + imm21.toInt)
  | .jalr _ rs1 imm12 => BitVec.ofNat 32 (2 * ((BitVec.ofInt 32 ((readReg s rs1).toNat + imm12.toInt) : Word).toNat / 2))
  | _ => BitVec.ofNat 32 (s.pc.toNat + 4)

open Sys2Proof.Claims

/-! ### Encoding -/

/-- Words written out from the encodings of the spec, one or more per family, decode to their instructions (R101, R121,
R129, R143, R150, R160, R171, R178, R179 examples; 95_test_vectors.md W3, W5). -/
def Obligations.DecodesWordsOfTheSpec : Prop :=
  decode 0x00A28033#32 = .ok (.add 0 5 10) ∧ decode 0x40A28033#32 = .ok (.sub 0 5 10) ∧
  decode 0xFFF28093#32 = .ok (.addi 1 5 0xFFF#12) ∧ decode 0x41F2D093#32 = .ok (.srai 1 5 31) ∧
  decode 0x0012A083#32 = .ok (.lw 1 5 1) ∧ decode 0xFE62AE23#32 = .ok (.sw 5 6 0xFFC#12) ∧
  decode 0x123450B7#32 = .ok (.lui 1 0x12345#20) ∧ decode 0x2A6285E3#32 = .ok (.beq 5 6 0x0AAA#13) ∧
  decode 0xAABAA0EF#32 = .ok (.jal 1 0x1AAAAA#21) ∧ decode 0x003290E7#32 = .ok (.jalr 1 5 3)

/-- Decoding the encoding of a well-formed instruction gives it back, every operand at every value (R62 to R67, R69, R89;
95_test_vectors.md W3). -/
def Obligations.DecodeOfEncode : Prop :=
  ∀ i : Instr, i.wellFormed = true → decode (encode i) = .ok i

/-- A word that decodes to an instruction decodes to a well-formed one, and is its encoding in every bit but those the
encoding leaves open (R82, R83 and the spec's decision D15; log 15). -/
def Obligations.EncodeOfDecode : Prop :=
  ∀ (w : Word) (i : Instr), decode w = .ok i →
    i.wellFormed = true ∧ w &&& ~~~(openBits i) = encode i &&& ~~~(openBits i)

/-- A word is the instruction exactly when it matches the instruction's row (R89); rows do not overlap; a word with a supported
opcode that matches no row is `IllegalEncoding`. Which sub-codes match no row is the spec's decisions D9, D10, D12 and D13
(R79; log 11, log 14), that OP-IMM funct3 000 is ADDI whatever bit 30 its D11 (log 13), and that JALR's row leaves funct3
open its D15 (log 15). -/
def Obligations.TableDecidesTheInstruction : Prop :=
  (∀ (w : Word) (i : Instr), decode w = .ok i → i.row ∈ opcodeTable ∧ w &&& i.row.mask = i.row.value) ∧
  (∀ (w : Word) (row : TableRow), row ∈ opcodeTable → w &&& row.mask = row.value →
    ∃ i, decode w = .ok i ∧ i.row = row) ∧
  (∀ (w : Word) (r1 r2 : TableRow), r1 ∈ opcodeTable → r2 ∈ opcodeTable → w &&& r1.mask = r1.value →
    w &&& r2.mask = r2.value → r1 = r2) ∧
  (∀ w : Word, w.toNat % 128 ∈ supportedOpcodes → (∀ row ∈ opcodeTable, w &&& row.mask ≠ row.value) →
    decode w = .error .illegalEncoding)

/-- R77: decoding answers `UnsupportedOpcode` exactly when `word[6:0]` is none of the nine values, and the record of R69
otherwise. -/
def Obligations.UnsupportedOpcodeExactly : Prop :=
  ∀ w : Word,
    (decode w = .error .unsupportedOpcode ↔ w.toNat % 128 ∉ supportedOpcodes) ∧
    (w.toNat % 128 ∉ supportedOpcodes ↔ decodeRecord w = none) ∧
    (∀ o : Opcode, w.toNat % 128 = o.bits.toNat → decodeRecord w = some (recordOf w o))

/-- The `IllegalEncoding` space is exactly R79's table, whose rows are decisions of the spec (D9, D10, D12, D13), and a step
raises `IllegalEncoding` exactly when it fetches such a word, whatever address the word would have used. -/
def Obligations.IllegalEncodingExactly : Prop :=
  (∀ w : Word, decode w = .error .illegalEncoding ↔ IllegalWord w) ∧
  (∀ s : State, ConfigValid s.config →
    ((∃ ipc v, step s = .fault (.illegalEncoding ipc v)) ↔ ∃ w, fetchWord s = some w ∧ IllegalWord w))

/-- R70 to R74: the detangled immediates, as numbers built from the word's fields. -/
def Obligations.ImmediatesFromTheWord : Prop :=
  ∀ w : Word,
    (immI w).toNat = w.toNat / 2 ^ 20 ∧
    (immS w).toNat = w.toNat / 2 ^ 25 * 2 ^ 5 + w.toNat / 2 ^ 7 % 2 ^ 5 ∧
    (immB w).toNat = w.toNat / 2 ^ 31 * 2 ^ 12 + w.toNat / 2 ^ 7 % 2 * 2 ^ 11 + w.toNat / 2 ^ 25 % 2 ^ 6 * 2 ^ 5 +
      w.toNat / 2 ^ 8 % 2 ^ 4 * 2 ∧
    (immU w).toNat = w.toNat / 2 ^ 12 * 2 ^ 12 ∧
    (immJ w).toNat = w.toNat / 2 ^ 31 * 2 ^ 20 + w.toNat / 2 ^ 12 % 2 ^ 8 * 2 ^ 12 + w.toNat / 2 ^ 20 % 2 * 2 ^ 11 +
      w.toNat / 2 ^ 21 % 2 ^ 10 * 2

/-- R8, R9: sign extension subtracts 2^n from the field when its top bit is set, and zero extension keeps its value. -/
def Obligations.ExtensionsAreTwosComplement : Prop :=
  (∀ v : BitVec 12, (sext12 v).toInt = if v.getLsbD 11 then (v.toNat : Int) - 2 ^ 12 else (v.toNat : Int)) ∧
  (∀ v : BitVec 13, (sext13 v).toInt = if v.getLsbD 12 then (v.toNat : Int) - 2 ^ 13 else (v.toNat : Int)) ∧
  (∀ v : BitVec 21, (sext21 v).toInt = if v.getLsbD 20 then (v.toNat : Int) - 2 ^ 21 else (v.toNat : Int)) ∧
  (∀ v : Word, (sextByte v).toInt = if v.getLsbD 7 then (v.toNat : Int) % 2 ^ 8 - 2 ^ 8 else (v.toNat : Int) % 2 ^ 8) ∧
  (∀ v : Word, (sextHalf v).toInt = if v.getLsbD 15 then (v.toNat : Int) % 2 ^ 16 - 2 ^ 16 else (v.toNat : Int) % 2 ^ 16) ∧
  (∀ v : BitVec 12, (zext12 v).toNat = v.toNat)

/-! ### Register-register ALU -/

/-- ADD and SUB (R101, R102) modulo 2^32, their encodings, and the illegal funct7 of funct3 000. The funct7 check (R100) is the
spec's decision D9 (log 11). -/
def Obligations.AddAndSub : Prop :=
  Encodes 0xFE00707F#32 0x00000033#32 (rType .add) ∧ Encodes 0xFE00707F#32 0x40000033#32 (rType .sub) ∧
  OpIllegal 0 [0, 0x20] ∧
  ∀ (rd rs1 rs2 : RegIdx) (s : State),
    Writes (.add rd rs1 rs2) s rd (BitVec.ofNat 32 ((readReg s rs1).toNat + (readReg s rs2).toNat)) (s.pc + 4#32) ∧
    Writes (.sub rd rs1 rs2) s rd (BitVec.ofInt 32 ((readReg s rs1).toNat - (readReg s rs2).toNat)) (s.pc + 4#32)

/-- SLL, SRL and SRA (R103, R107, R108), their encodings, and the illegal funct7 of funct3 001 and 101. That the amount is the
low five bits of `x[rs2]` whatever its value is the spec's decision D8 (log 10), and the funct7 check its decision D9. -/
def Obligations.RegisterShifts : Prop :=
  Encodes 0xFE00707F#32 0x00001033#32 (rType .sll) ∧ Encodes 0xFE00707F#32 0x00005033#32 (rType .srl) ∧
  Encodes 0xFE00707F#32 0x40005033#32 (rType .sra) ∧ OpIllegal 1 [0] ∧ OpIllegal 5 [0, 0x20] ∧
  ∀ (rd rs1 rs2 : RegIdx) (s : State),
    Writes (.sll rd rs1 rs2) s rd
      (BitVec.ofNat 32 ((readReg s rs1).toNat * 2 ^ ((readReg s rs2).toNat % 32))) (s.pc + 4#32) ∧
    Writes (.srl rd rs1 rs2) s rd
      (BitVec.ofNat 32 ((readReg s rs1).toNat / 2 ^ ((readReg s rs2).toNat % 32))) (s.pc + 4#32) ∧
    Writes (.sra rd rs1 rs2) s rd
      (BitVec.ofInt 32 ((readReg s rs1).toInt / 2 ^ ((readReg s rs2).toNat % 32))) (s.pc + 4#32)

/-- SLT and SLTU (R104, R105), their encodings, and the illegal funct7 of funct3 010 and 011. The funct7 check (R100) is the
spec's decision D9 (log 11). -/
def Obligations.RegisterCompares : Prop :=
  Encodes 0xFE00707F#32 0x00002033#32 (rType .slt) ∧ Encodes 0xFE00707F#32 0x00003033#32 (rType .sltu) ∧
  OpIllegal 2 [0] ∧ OpIllegal 3 [0] ∧
  ∀ (rd rs1 rs2 : RegIdx) (s : State),
    Writes (.slt rd rs1 rs2) s rd (if (readReg s rs1).toInt < (readReg s rs2).toInt then 1#32 else 0#32)
      (s.pc + 4#32) ∧
    Writes (.sltu rd rs1 rs2) s rd (if (readReg s rs1).toNat < (readReg s rs2).toNat then 1#32 else 0#32)
      (s.pc + 4#32)

/-- XOR, OR and AND (R106, R109, R110), their encodings, and the illegal funct7 of funct3 100, 110 and 111. The funct7 check
(R100) is the spec's decision D9 (log 11). -/
def Obligations.RegisterLogic : Prop :=
  Encodes 0xFE00707F#32 0x00004033#32 (rType .xor) ∧ Encodes 0xFE00707F#32 0x00006033#32 (rType .or) ∧
  Encodes 0xFE00707F#32 0x00007033#32 (rType .and) ∧ OpIllegal 4 [0] ∧ OpIllegal 6 [0] ∧ OpIllegal 7 [0] ∧
  ∀ (rd rs1 rs2 : RegIdx) (s : State),
    Writes (.xor rd rs1 rs2) s rd (readReg s rs1 ^^^ readReg s rs2) (s.pc + 4#32) ∧
    Writes (.or rd rs1 rs2) s rd (readReg s rs1 ||| readReg s rs2) (s.pc + 4#32) ∧
    Writes (.and rd rs1 rs2) s rd (readReg s rs1 &&& readReg s rs2) (s.pc + 4#32)

/-! ### Register-immediate ALU -/

/-- ADDI (R121), the immediate sign-extended. That every word with opcode 0010011 and funct3 000 is ADDI, so that bit 30 is
immediate bit 10 and never makes it subtract, is the spec's decision D11 (log 13). -/
def Obligations.AddImmediate : Prop :=
  Encodes 0x0000707F#32 0x00000013#32 (iType .addi) ∧
  ∀ (rd rs1 : RegIdx) (imm12 : BitVec 12) (s : State),
    Writes (.addi rd rs1 imm12) s rd (BitVec.ofInt 32 ((readReg s rs1).toNat + imm12.toInt)) (s.pc + 4#32)

/-- R122, R123: SLTI compares signed with the sign-extended immediate, SLTIU unsigned with the zero-extended one. -/
def Obligations.ImmediateCompares : Prop :=
  Encodes 0x0000707F#32 0x00002013#32 (iType .slti) ∧ Encodes 0x0000707F#32 0x00003013#32 (iType .sltiu) ∧
  ∀ (rd rs1 : RegIdx) (imm12 : BitVec 12) (s : State),
    Writes (.slti rd rs1 imm12) s rd (if (readReg s rs1).toInt < imm12.toInt then 1#32 else 0#32) (s.pc + 4#32) ∧
    Writes (.sltiu rd rs1 imm12) s rd (if (readReg s rs1).toNat < imm12.toNat then 1#32 else 0#32) (s.pc + 4#32)

/-- R124, R125, R126: XORI, ORI and ANDI with the sign-extended immediate. -/
def Obligations.ImmediateLogic : Prop :=
  Encodes 0x0000707F#32 0x00004013#32 (iType .xori) ∧ Encodes 0x0000707F#32 0x00006013#32 (iType .ori) ∧
  Encodes 0x0000707F#32 0x00007013#32 (iType .andi) ∧
  ∀ (rd rs1 : RegIdx) (imm12 : BitVec 12) (s : State),
    Writes (.xori rd rs1 imm12) s rd (readReg s rs1 ^^^ BitVec.ofInt 32 imm12.toInt) (s.pc + 4#32) ∧
    Writes (.ori rd rs1 imm12) s rd (readReg s rs1 ||| BitVec.ofInt 32 imm12.toInt) (s.pc + 4#32) ∧
    Writes (.andi rd rs1 imm12) s rd (readReg s rs1 &&& BitVec.ofInt 32 imm12.toInt) (s.pc + 4#32)

/-- SLLI, SRLI and SRAI (R127, R128, R129) by shamt, their encodings, and the illegal `word[31:25]`. That the amount is
`imm12[4:0]` is the spec's decision D8 (log 10), and the check of `word[31:25]` (R120) its decision D10 (log 11). -/
def Obligations.ImmediateShifts : Prop :=
  Encodes 0xFE00707F#32 0x00001013#32 (shiftType .slli) ∧ Encodes 0xFE00707F#32 0x00005013#32 (shiftType .srli) ∧
  Encodes 0xFE00707F#32 0x40005013#32 (shiftType .srai) ∧ OpImmIllegal 1 [0] ∧ OpImmIllegal 5 [0, 0x20] ∧
  ∀ (rd rs1 : RegIdx) (shamt : BitVec 5) (s : State),
    Writes (.slli rd rs1 shamt) s rd (BitVec.ofNat 32 ((readReg s rs1).toNat * 2 ^ shamt.toNat)) (s.pc + 4#32) ∧
    Writes (.srli rd rs1 shamt) s rd (BitVec.ofNat 32 ((readReg s rs1).toNat / 2 ^ shamt.toNat)) (s.pc + 4#32) ∧
    Writes (.srai rd rs1 shamt) s rd (BitVec.ofInt 32 ((readReg s rs1).toInt / 2 ^ shamt.toNat)) (s.pc + 4#32)

/-! ### Upper immediates -/

/-- R160, R161: LUI writes `imm32`, AUIPC `imm32 + ipc`; every word with their opcodes is one. -/
def Obligations.UpperImmediates : Prop :=
  Encodes 0x0000007F#32 0x00000037#32 (uType .lui) ∧ Encodes 0x0000007F#32 0x00000017#32 (uType .auipc) ∧
  ∀ (rd : RegIdx) (imm20 : BitVec 20) (s : State),
    Writes (.lui rd imm20) s rd (BitVec.ofNat 32 (imm20.toNat * 2 ^ 12)) (s.pc + 4#32) ∧
    Writes (.auipc rd imm20) s rd (BitVec.ofNat 32 (imm20.toNat * 2 ^ 12 + s.pc.toNat)) (s.pc + 4#32)

/-! ### Loads and stores -/

/-- R141, R142: LB and LH inside the window write the sign-extended bytes, little-endian; outside it they raise
`Memory(OutOfBounds)`. -/
def Obligations.SignedLoads : Prop :=
  Encodes 0x0000707F#32 0x00000003#32 (iType .lb) ∧ Encodes 0x0000707F#32 0x00001003#32 (iType .lh) ∧
  ∀ (rd rs1 : RegIdx) (imm12 : BitVec 12) (s : State),
    let ea : Word := BitVec.ofInt 32 ((readReg s rs1).toNat + imm12.toInt)
    (s.config.lower ≤ ea.toNat → ea.toNat ≤ s.config.upper →
      Writes (.lb rd rs1 imm12) s rd (BitVec.ofInt 32 (byteAt s ea.toNat).toInt) (s.pc + 4#32)) ∧
    ((ea.toNat < s.config.lower ∨ s.config.upper < ea.toNat) →
      RaisesMemory (.lb rd rs1 imm12) s) ∧
    (s.config.lower ≤ ea.toNat → ea.toNat + 1 ≤ s.config.upper →
      Writes (.lh rd rs1 imm12) s rd
        (BitVec.ofInt 32 (byteAt s (ea.toNat + 1) ++ byteAt s ea.toNat).toInt) (s.pc + 4#32)) ∧
    ((ea.toNat < s.config.lower ∨ s.config.upper < ea.toNat + 1) →
      RaisesMemory (.lh rd rs1 imm12) s)

/-- R143: LW inside the window writes the four bytes, little-endian; outside it raises `Memory(OutOfBounds)`; funct3 110 is LW
too. -/
def Obligations.LoadWord : Prop :=
  Encodes 0x0000307F#32 0x00002003#32 (iType .lw) ∧
  ∀ (rd rs1 : RegIdx) (imm12 : BitVec 12) (s : State),
    let ea : Word := BitVec.ofInt 32 ((readReg s rs1).toNat + imm12.toInt)
    (s.config.lower ≤ ea.toNat → ea.toNat + 3 ≤ s.config.upper →
      Writes (.lw rd rs1 imm12) s rd
        (byteAt s (ea.toNat + 3) ++ byteAt s (ea.toNat + 2) ++ byteAt s (ea.toNat + 1) ++ byteAt s ea.toNat)
        (s.pc + 4#32)) ∧
    ((ea.toNat < s.config.lower ∨ s.config.upper < ea.toNat + 3) →
      RaisesMemory (.lw rd rs1 imm12) s)

/-- R144, R145: LBU and LHU inside the window write the zero-extended bytes, little-endian; outside it they raise
`Memory(OutOfBounds)`. -/
def Obligations.UnsignedLoads : Prop :=
  Encodes 0x0000707F#32 0x00004003#32 (iType .lbu) ∧ Encodes 0x0000707F#32 0x00005003#32 (iType .lhu) ∧
  ∀ (rd rs1 : RegIdx) (imm12 : BitVec 12) (s : State),
    let ea : Word := BitVec.ofInt 32 ((readReg s rs1).toNat + imm12.toInt)
    (s.config.lower ≤ ea.toNat → ea.toNat ≤ s.config.upper →
      Writes (.lbu rd rs1 imm12) s rd (BitVec.ofNat 32 (byteAt s ea.toNat).toNat) (s.pc + 4#32)) ∧
    ((ea.toNat < s.config.lower ∨ s.config.upper < ea.toNat) →
      RaisesMemory (.lbu rd rs1 imm12) s) ∧
    (s.config.lower ≤ ea.toNat → ea.toNat + 1 ≤ s.config.upper →
      Writes (.lhu rd rs1 imm12) s rd
        (BitVec.ofNat 32 (byteAt s (ea.toNat + 1) ++ byteAt s ea.toNat).toNat) (s.pc + 4#32)) ∧
    ((ea.toNat < s.config.lower ∨ s.config.upper < ea.toNat + 1) →
      RaisesMemory (.lhu rd rs1 imm12) s)

/-- R148, R149, R150: SB, SH and SW inside the window store the low bytes of `x[rs2]` at the effective address and nothing
else; outside it they raise `Memory(OutOfBounds)`; funct3[2] is not read. The address is the meaning's own
`effectiveAddress`, and it is `x[rs1] + sext_12(imm12)` modulo 2^32. -/
def Obligations.StoresOfEachWidth : Prop :=
  Encodes 0x0000307F#32 0x00000023#32 (sType .sb) ∧ Encodes 0x0000307F#32 0x00001023#32 (sType .sh) ∧
  Encodes 0x0000307F#32 0x00002023#32 (sType .sw) ∧
  ∀ (rs1 rs2 : RegIdx) (imm12 : BitVec 12) (s : State),
    let ea := effectiveAddress s rs1 imm12
    ea = BitVec.ofInt 32 ((readReg s rs1).toNat + imm12.toInt) ∧
    (s.config.lower ≤ ea.toNat → ea.toNat ≤ s.config.upper → Stores (.sb rs1 rs2 imm12) s ea 1 (readReg s rs2)) ∧
    ((ea.toNat < s.config.lower ∨ s.config.upper < ea.toNat) →
      RaisesMemory (.sb rs1 rs2 imm12) s) ∧
    (s.config.lower ≤ ea.toNat → ea.toNat + 1 ≤ s.config.upper → Stores (.sh rs1 rs2 imm12) s ea 2 (readReg s rs2)) ∧
    ((ea.toNat < s.config.lower ∨ s.config.upper < ea.toNat + 1) →
      RaisesMemory (.sh rs1 rs2 imm12) s) ∧
    (s.config.lower ≤ ea.toNat → ea.toNat + 3 ≤ s.config.upper → Stores (.sw rs1 rs2 imm12) s ea 4 (readReg s rs2)) ∧
    ((ea.toNat < s.config.lower ∨ s.config.upper < ea.toNat + 3) →
      RaisesMemory (.sw rs1 rs2 imm12) s)

/-! ### Control transfer -/

/-- R171, R172: BEQ and BNE. -/
def Obligations.EqualityBranches : Prop :=
  Encodes 0x0000707F#32 0x00000063#32 (bType .beq) ∧ Encodes 0x0000707F#32 0x00001063#32 (bType .bne) ∧
  ∀ (rs1 rs2 : RegIdx) (imm13 : BitVec 13) (s : State),
    let target : Word := BitVec.ofInt 32 (s.pc.toNat + imm13.toInt)
    Transfers (.beq rs1 rs2 imm13) s (if readReg s rs1 = readReg s rs2 then target else s.pc + 4#32) ∧
    Transfers (.bne rs1 rs2 imm13) s (if readReg s rs1 ≠ readReg s rs2 then target else s.pc + 4#32)

/-- R173, R174: BLT and BGE compare signed. -/
def Obligations.SignedBranches : Prop :=
  Encodes 0x0000707F#32 0x00004063#32 (bType .blt) ∧ Encodes 0x0000707F#32 0x00005063#32 (bType .bge) ∧
  ∀ (rs1 rs2 : RegIdx) (imm13 : BitVec 13) (s : State),
    let target : Word := BitVec.ofInt 32 (s.pc.toNat + imm13.toInt)
    Transfers (.blt rs1 rs2 imm13) s
      (if (readReg s rs1).toInt < (readReg s rs2).toInt then target else s.pc + 4#32) ∧
    Transfers (.bge rs1 rs2 imm13) s
      (if (readReg s rs2).toInt ≤ (readReg s rs1).toInt then target else s.pc + 4#32)

/-- R175, R176: BLTU and BGEU compare unsigned. -/
def Obligations.UnsignedBranches : Prop :=
  Encodes 0x0000707F#32 0x00006063#32 (bType .bltu) ∧ Encodes 0x0000707F#32 0x00007063#32 (bType .bgeu) ∧
  ∀ (rs1 rs2 : RegIdx) (imm13 : BitVec 13) (s : State),
    let target : Word := BitVec.ofInt 32 (s.pc.toNat + imm13.toInt)
    Transfers (.bltu rs1 rs2 imm13) s
      (if (readReg s rs1).toNat < (readReg s rs2).toNat then target else s.pc + 4#32) ∧
    Transfers (.bgeu rs1 rs2 imm13) s
      (if (readReg s rs2).toNat ≤ (readReg s rs1).toNat then target else s.pc + 4#32)

/-- R178: JAL links `ipc + 4` and jumps to `ipc + sext_21(imm21)`; every word with its opcode is JAL. -/
def Obligations.JumpAndLink : Prop :=
  Encodes 0x0000007F#32 0x0000006F#32 (jType .jal) ∧
  ∀ (rd : RegIdx) (imm21 : BitVec 21) (s : State),
    Writes (.jal rd imm21) s rd (BitVec.ofNat 32 (s.pc.toNat + 4)) (BitVec.ofInt 32 (s.pc.toNat + imm21.toInt))

/-- JALR (R179) links `ipc + 4` and jumps to the sum with its bit 0 cleared. That the sum uses the old `x[rs1]` even when
`rd = rs1` is the spec's decision D14 (log 16), and that funct3 is no part of the encoding its decision D15 (log 15). -/
def Obligations.JumpAndLinkRegister : Prop :=
  Encodes 0x0000007F#32 0x00000067#32 (iType .jalr) ∧
  ∀ (rd rs1 : RegIdx) (imm12 : BitVec 12) (s : State),
    let sum : Word := BitVec.ofInt 32 ((readReg s rs1).toNat + imm12.toInt)
    Writes (.jalr rd rs1 imm12) s rd (BitVec.ofNat 32 (s.pc.toNat + 4)) (BitVec.ofNat 32 (2 * (sum.toNat / 2)))

/-! ### The step -/

/-- The step as `step` composes it (R90, R92 to R96): in a valid configuration, when the four bytes at the pc are in the window
and decode to `i`, it is `exec i` on the state with `x[0]` forced to 0, with `x[0]` forced to 0 again in the next state; the
pc is the one `exec` leaves, and errors pass unchanged. That only a valid configuration steps is the model's (log 4). -/
def Obligations.StepRunsTheDecodedInstruction : Prop :=
  ∀ (s : State) (i : Instr), ConfigValid s.config → InWindow s.config s.pc 4 →
    decode (byteAt s (s.pc.toNat + 3) ++ byteAt s (s.pc.toNat + 2) ++ byteAt s (s.pc.toNat + 1) ++
      byteAt s s.pc.toNat) = .ok i →
    step s = match exec i (forceZero s) with
      | .next t => .next (forceZero t)
      | .fault e => .fault e
      | .refused r => .refused r

/-- The spec's decision D4 (R33; log 4): a configuration that breaks the constraint is refused, by the step and by the
construction, an image longer than the capacity too (D21); any other configuration is kept by every step. -/
def Obligations.ConfigurationCheckedAndFixed : Prop :=
  (∀ s : State, ¬(s.config.lower ≤ s.config.upper ∧ s.config.upper + 1 ≤ s.config.capacity ∧
      s.config.capacity ≤ 2 ^ 32) → step s = .refused .invalidConfiguration) ∧
  (∀ (c : MemConfig) (image : List Byte), (construct c image).isSome = true ↔
      (c.lower ≤ c.upper ∧ c.upper + 1 ≤ c.capacity ∧ c.capacity ≤ 2 ^ 32 ∧ image.length ≤ c.capacity)) ∧
  (∀ s t : State, step s = .next t → t.config = s.config)

/-- The step raises `Fetch(OutOfBounds)` exactly when the four bytes at the pc are not all in the window (R201). That the sum is
taken on unbounded integers (R41) is the spec's decision D5 (log 17). -/
def Obligations.FetchOutOfBoundsExactly : Prop :=
  ∀ s : State, ConfigValid s.config →
    ((∃ ipc n, step s = .fault (.fetchOutOfBounds ipc n)) ↔
      (s.pc.toNat < s.config.lower ∨ s.config.upper < s.pc.toNat + 3))

/-- R94, R202: the step raises `Decode(UnsupportedOpcode)` exactly when the fetch succeeds and the word's opcode is none of
the nine. -/
def Obligations.UnsupportedOpcodeRaised : Prop :=
  ∀ s : State, ConfigValid s.config →
    ((∃ ipc v, step s = .fault (.unsupportedOpcode ipc v)) ↔
      ∃ w, fetchWord s = some w ∧ w.toNat % 128 ∉ supportedOpcodes)

/-- MISC-MEM, SYSTEM and the opcodes of absent extensions are unsupported, compressed parcels too (R191 to R194; the names and
values of absent opcodes are the spec's general knowledge); the M extension's words are illegal encodings (D9). -/
def Obligations.SystemAndExtensionWords : Prop :=
  ∀ (s : State) (w : Word), ConfigValid s.config → fetchWord s = some w →
    ((w.toNat % 128 ∈ [0x0F, 0x73, 0x2F, 0x07, 0x27, 0x53, 0x43, 0x47, 0x4B, 0x4F, 0x1B, 0x3B] ∨ w.toNat % 4 ≠ 3) →
      step s = .fault (.unsupportedOpcode s.pc w)) ∧
    (w.toNat % 128 = 0x33 → w.toNat / 2 ^ 25 = 1 → step s = .fault (.illegalEncoding s.pc w))

/-- A step in a valid configuration returns exactly one of the five outcomes: it completes, or it raises one of the four
errors, each carrying the pc; it is never refused. The codes are the spec's decision D17, the fourth name D18, the fields D16
(R200; log 7). -/
def Obligations.OutcomesAreTheFive : Prop :=
  ∀ s : State, ConfigValid s.config →
    (∃ t, step s = .next t ∧ outcomeCode (step s) = some 0) ∨
    (step s = .fault (.fetchOutOfBounds s.pc 4) ∧ outcomeCode (step s) = some 1) ∨
    (∃ w, step s = .fault (.unsupportedOpcode s.pc w) ∧ outcomeCode (step s) = some 2) ∨
    (∃ w, step s = .fault (.illegalEncoding s.pc w) ∧ outcomeCode (step s) = some 3) ∨
    (∃ ea n, step s = .fault (.memoryOutOfBounds s.pc ea n) ∧ outcomeCode (step s) = some 4)

/-- What an error carries: the pc of every error, the fetched word of the two decode errors, and 4 for a fetch. These fields
are the spec's own choice (R205, D16). -/
def Obligations.ErrorsCarryTheirFields : Prop :=
  ∀ (s : State) (e : Fault), step s = .fault e →
    match e with
    | .fetchOutOfBounds ipc n => ipc = s.pc ∧ n = 4
    | .unsupportedOpcode ipc w | .illegalEncoding ipc w => ipc = s.pc ∧ fetchWord s = some w
    | .memoryOutOfBounds ipc _ n => ipc = s.pc ∧ (n = 1 ∨ n = 2 ∨ n = 4)

/-- A step that raises `Memory(OutOfBounds)` fetched a load or a store whose `n` bytes at its effective address are not all in
the window; fetch, decode and illegal-encoding errors come first, so none of them applied (R204, and R208, which the spec
derives; the fields are its decision D16). -/
def Obligations.MemoryErrorComesLast : Prop :=
  ∀ (s : State) (ipc ea : Word) (n : Nat), step s = .fault (.memoryOutOfBounds ipc ea n) →
    ipc = s.pc ∧ (n = 1 ∨ n = 2 ∨ n = 4) ∧ ¬InWindow s.config ea n ∧ InWindow s.config s.pc 4 ∧
    ∃ w i, fetchWord s = some w ∧ decode w = .ok i ∧
      ∃ a b : RegIdx, ∃ imm12 : BitVec 12,
        (ea = effectiveAddress s b imm12 ∧
          ((n = 1 ∧ (i = .lb a b imm12 ∨ i = .lbu a b imm12)) ∨ (n = 2 ∧ (i = .lh a b imm12 ∨ i = .lhu a b imm12)) ∨
            (n = 4 ∧ i = .lw a b imm12))) ∨
        (ea = effectiveAddress s a imm12 ∧
          ((n = 1 ∧ i = .sb a b imm12) ∨ (n = 2 ∧ i = .sh a b imm12) ∨ (n = 4 ∧ i = .sw a b imm12)))

/-- The pc after every instruction that completes (R97, R27): the target of a taken branch, of JAL or of JALR, `ipc + 4`
otherwise. JALR's target uses the old `x[rs1]` (D14). -/
def Obligations.PcAfterEveryInstruction : Prop :=
  ∀ (i : Instr) (s t : State), exec i s = .next t → t.pc = pcAfter i s

/-- R22, R96: `x0` reads as 0 and discards writes, the other registers are plain storage, and after every step that
completes, whatever the state before, `x[0]` is 0. -/
def Obligations.ZeroRegisterIsHardwired : Prop :=
  (∀ s : State, readReg s 0#5 = 0#32) ∧ (∀ (s : State) (v : Word), writeReg s 0#5 v = s) ∧
  (∀ (s : State) (rd r : RegIdx) (v : Word), rd ≠ 0#5 →
    readReg (writeReg s rd v) r = if r = rd then v else readReg s r) ∧
  (∀ s t : State, step s = .next t → t.regs[0] = 0#32)

/-- R23, R92: a state with any value in `x[0]` is not rejected, and the value is never read: the step answers the same, and
a next state has `x[0]` 0. -/
def Obligations.ZeroRegisterInputIgnored : Prop :=
  ∀ (s : State) (v : Word),
    step { s with regs := s.regs.set 0 v } = step s ∧
    ∀ t, step { s with regs := s.regs.set 0 v } = .next t → t.regs[0] = 0#32

/-- The frame of every instruction: when it completes, every register but its own `rd` is unchanged, every byte but the 1, 2 or
4 bytes that SB, SH or SW stores at its effective address is unchanged, and so is the configuration; no instruction has both
an `rd` and a store (files 41 to 45). -/
def Obligations.OneWriteEachInstruction : Prop :=
  ∀ (i : Instr) (s t : State), exec i s = .next t →
    (∀ r, destination i ≠ some r → readReg t r = readReg s r) ∧
    (∀ x, (∀ a n, storedTo i s = some (a, n) → x < a.toNat ∨ a.toNat + n ≤ x) → byteAt t x = byteAt s x) ∧
    t.config = s.config ∧ (destination i = none ∨ storedTo i s = none)

/-- During steps only store instructions write memory (R35). -/
def Obligations.OnlyStoresWriteMemory : Prop :=
  ∀ (s t : State) (i : Instr), step s = .next t → fetchInstr s = .ok i →
    (∀ rs1 rs2 imm12, i ≠ .sb rs1 rs2 imm12 ∧ i ≠ .sh rs1 rs2 imm12 ∧ i ≠ .sw rs1 rs2 imm12) → t.mem = s.mem

/-- No step changes a byte outside the window (R45, R55). -/
def Obligations.OutsideWindowNeverWritten : Prop :=
  ∀ (s t : State) (a : Nat), step s = .next t → (a < s.config.lower ∨ s.config.upper < a) →
    byteAt t a = byteAt s a

/-- No step reveals a byte outside the window (R40, R45, R55). Two states that differ only there step to the same outcome: the
same error, or next states that differ only there. -/
def Obligations.OutsideWindowNeverRead : Prop :=
  ∀ s t : State, AgreeInWindow s t → SameOutcome (step s) (step t)

/-! ### The invariant -/

/-- The state after reset meets the invariant. -/
def Obligations.ResetMeetsTheInvariant : Prop := State.reset.Inv

/-- Every step keeps the invariant: the configuration stays valid (R33), `x[0]` 0 (R22), the written bytes canonical (log 2) and
inside the storage (R33), the pc even (which the spec derives, R29). -/
def Obligations.StepKeepsTheInvariant : Prop :=
  ∀ s t : State, s.Inv → step s = .next t → t.Inv

/-! ### Reset, construction and memory -/

/-- The machine as `State.reset` gives it: pc 0, every register 0 (the spec's decision D2, R37, R38; log 6), every byte its
`INIT_MEM` (D3, R39; log 1). The window of `State.reset` is the model's choice (log 3) and no part of this. -/
def Obligations.ResetValues : Prop :=
  State.reset.pc = 0#32 ∧ (∀ k, (h : k < 32) → State.reset.regs[k] = 0#32) ∧
  (∀ r, readReg State.reset r = 0#32) ∧ ∀ a, byteAt State.reset a = Config.initMem a

/-- The construction puts pc and registers at 0, the image at address 0, and leaves every other byte its `INIT_MEM`; the state
meets the invariant. The sequence is the spec's decision (R230: D2, D3, D21; log 5). -/
def Obligations.ConstructionLoadsTheImage : Prop :=
  ∀ (c : MemConfig) (image : List Byte) (s : State), construct c image = some s →
    s.pc = 0#32 ∧ (∀ r, readReg s r = 0#32) ∧ s.config = c ∧ s.Inv ∧
    (∀ k, (h : k < image.length) → byteAt s k = image[k]) ∧
    (∀ a, image.length ≤ a → byteAt s a = Config.initMem a)

/-- `BulkInit` (R54) writes the image's bytes at address 0 on, whatever the window, and changes no other byte; that an image
longer than the capacity is refused is the spec's decision D21 (log 19). -/
def Obligations.BulkInitWritesTheImage : Prop :=
  ∀ (c : MemConfig) (image : List Byte) (m : Memory),
    (c.capacity < image.length → bulkInit c image m = none) ∧
    (image.length ≤ c.capacity → ∃ m', bulkInit c image m = some m' ∧
      (∀ k, (h : k < image.length) → Memory.get m' k = some image[k]) ∧
      (∀ a, image.length ≤ a → Memory.get m' a = Memory.get m a))

/-- A checked access happens exactly when its bytes are in the window (R41, R44); that the sum is taken on unbounded integers is
the spec's decision D5 (log 17). Then every byte is a storage byte, and no byte lies past 0xFFFFFFFF. -/
def Obligations.WindowCheckExactly : Prop :=
  ∀ (s : State) (a v : Word) (n : Nat), ConfigValid s.config → (n = 1 ∨ n = 2 ∨ n = 4) →
    ((memRead s a n).isSome = true ↔ s.config.lower ≤ a.toNat ∧ a.toNat + n ≤ s.config.upper + 1) ∧
    ((memWrite s a n v).isSome = true ↔ s.config.lower ≤ a.toNat ∧ a.toNat + n ≤ s.config.upper + 1) ∧
    ((memRead s a n).isSome = true → ∀ k, k < n → a.toNat + k < s.config.capacity ∧ a.toNat + k < 2 ^ 32)

/-- After a word store, the narrower loads see the bytes at their own addresses, assembled little-endian (R49, which the spec
derives). -/
def Obligations.MixedWidthAccesses : Prop :=
  ∀ (s t : State) (a v : Word), ConfigValid s.config → memWrite s a 4 v = some t →
    memRead t a 1 = some (BitVec.ofNat 32 (v.toNat % 2 ^ 8)) ∧
    memRead t (a + 1#32) 1 = some (BitVec.ofNat 32 (v.toNat / 2 ^ 8 % 2 ^ 8)) ∧
    memRead t (a + 2#32) 2 = some (BitVec.ofNat 32 (v.toNat / 2 ^ 16)) ∧
    memRead t (a + 1#32) 2 = some (BitVec.ofNat 32 (v.toNat / 2 ^ 8 % 2 ^ 16)) ∧
    memRead t a 4 = some v

/-- A load returns the most recent store to its bytes (R56, which the spec derives): SW then LW, SH then LHU, SB then LBU at the
same operands. -/
def Obligations.LoadReturnsTheLastStore : Prop :=
  ∀ (rd rs1 rs2 : RegIdx) (imm12 : BitVec 12) (s t : State), rd ≠ 0#5 →
    (exec (.sw rs1 rs2 imm12) s = .next t →
      ∃ u, exec (.lw rd rs1 imm12) t = .next u ∧ readReg u rd = readReg s rs2) ∧
    (exec (.sh rs1 rs2 imm12) s = .next t →
      ∃ u, exec (.lhu rd rs1 imm12) t = .next u ∧ (readReg u rd).toNat = (readReg s rs2).toNat % 2 ^ 16) ∧
    (exec (.sb rs1 rs2 imm12) s = .next t →
      ∃ u, exec (.lbu rd rs1 imm12) t = .next u ∧ (readReg u rd).toNat = (readReg s rs2).toNat % 2 ^ 8)

/-- A stored word is the word that a fetch of its address reads (R59, which the spec derives): in any state with the memory and
the configuration the store leaves and the pc at the address stored to, whatever instructions came between. -/
def Obligations.StoreIsSeenByFetch : Prop :=
  ∀ (rs1 rs2 : RegIdx) (imm12 : BitVec 12) (s t u : State), exec (.sw rs1 rs2 imm12) s = .next t →
    u.mem = t.mem → u.config = t.config → u.pc = effectiveAddress s rs1 imm12 →
    fetchWord u = some (readReg s rs2)

/-- Memories in canonical form that read the same are the same data: the model's own form of memory (log 2). -/
def Obligations.CanonicalMemoriesAreEqual : Prop :=
  ∀ m m' : Memory, Memory.wf m → Memory.wf m' → (∀ a, Memory.get m a = Memory.get m' a) → m = m'

/-! ### Runs -/

/-- `JAL x0, 0` runs for ever and changes nothing (R237 (c), R178). -/
def Obligations.SelfJumpNeverEnds : Prop :=
  ∀ s : State, s.Inv → fetchWord s = some 0x0000006F#32 → ∀ n, RunsTo n s s

/-- A fetched branch, JAL or JALR completes whatever its target: there is no alignment and no window check at the branch (R180
and the spec's decision D7; log 18). A target whose four bytes are not all in the window fails at the next step's fetch, which ends
the run (R201, D19, D5; log 17); any other target, misaligned ones included, fetches the four bytes at it. The fields of the
error are D16, the instruction's use of the old `x[rs1]` D14. -/
def Obligations.BadTargetFailsAtTheNextFetch : Prop :=
  ∀ (s : State) (i : Instr), ConfigValid s.config → fetchInstr s = .ok i → IsTransfer i →
    ∃ t, step s = .next t ∧ t.pc = pcAfter i s ∧
      ((t.pc.toNat < s.config.lower ∨ s.config.upper < t.pc.toNat + 3) → EndsIn 1 s t (.fetchOutOfBounds t.pc 4)) ∧
      (s.config.lower ≤ t.pc.toNat → t.pc.toNat + 3 ≤ s.config.upper →
        fetchWord t = some (byteAt s (t.pc.toNat + 3) ++ byteAt s (t.pc.toNat + 2) ++ byteAt s (t.pc.toNat + 1) ++
          byteAt s t.pc.toNat))
end

