-- ==== Sys2Proof/Laws/Decode.lean ====
section
/-! SUPPORT. The small lemmas of decoding: an opcode and its bits, the fields of an encoded word, and what a decoding outcome
says of the word. -/

namespace Sys2Proof

@[simp] theorem Opcode.ofBits_bits (o : Opcode) : Opcode.ofBits o.bits = some o := by
  cases o <;> decide

/-- The opcode a value stands for has that value (R68). -/
theorem Opcode.bits_of_ofBits {b : BitVec 7} {o : Opcode} (h : Opcode.ofBits b = some o) : o.bits = b := by
  unfold Opcode.ofBits at h
  split_ifs at h <;> (cases h; subst b; rfl)

/-- A value is unsupported exactly when it is no opcode's (R77). -/
theorem Opcode.ofBits_eq_none_iff (b : BitVec 7) : Opcode.ofBits b = none ↔ ∀ o : Opcode, b ≠ o.bits := by
  constructor
  · rintro h o rfl
    simp at h
  · intro h
    cases hb : Opcode.ofBits b with
    | none => rfl
    | some o => exact absurd (Opcode.bits_of_ofBits hb).symm (h o)

/-! ### The three outcomes of `decode` -/

/-- A word decodes to an instruction when its opcode is supported and its record selects that instruction. -/
theorem decode_eq_ok_iff (w : Word) (i : Instr) :
    decode w = .ok i ↔ ∃ o, Opcode.ofBits (opcodeField w) = some o ∧ selectInstr (recordOf w o) = some i := by
  unfold decode decodeRecord
  cases h : Opcode.ofBits (opcodeField w) with
  | none => simp
  | some o =>
    cases h2 : selectInstr (recordOf w o) with
    | none => simp [h2]
    | some j => simp [h2]

/-- The opcode is none of the nine. -/
theorem decode_eq_unsupported_iff (w : Word) :
    decode w = .error .unsupportedOpcode ↔ Opcode.ofBits (opcodeField w) = none := by
  unfold decode decodeRecord
  cases h : Opcode.ofBits (opcodeField w) with
  | none => simp
  | some o =>
    cases h2 : selectInstr (recordOf w o) with
    | none => simp [h2]
    | some j => simp [h2]

/-- The opcode is supported and the record selects no instruction. -/
theorem decode_eq_illegal_iff (w : Word) :
    decode w = .error .illegalEncoding ↔
      ∃ o, Opcode.ofBits (opcodeField w) = some o ∧ selectInstr (recordOf w o) = none := by
  unfold decode decodeRecord
  cases h : Opcode.ofBits (opcodeField w) with
  | none => simp
  | some o =>
    cases h2 : selectInstr (recordOf w o) with
    | none => simp [h2]
    | some j => simp [h2]

/-- A whole word is never truncated. -/
theorem decode_ne_truncated (w : Word) : decode w ≠ .error .truncated := by
  unfold decode
  split
  · simp
  · split <;> simp

/-- A word put together from its own bytes (R48). -/
theorem wordOfBytes_bytesOfWord (w : Word) :
    wordOfBytes (w.extractLsb' 0 8) (w.extractLsb' 8 8) (w.extractLsb' 16 8) (w.extractLsb' 24 8) = w := by
  apply BitVec.eq_of_getLsbD_eq
  intro i hi
  unfold wordOfBytes
  repeat rw [BitVec.getLsbD_append]
  interval_cases i <;> simp

/-- Decoding the bytes of a word is decoding the word. -/
theorem decodeBytes_bytesOfWord (w : Word) :
    decodeBytes (bytesOfWord w) = (decode w).map (fun i => (i, [])) := by
  simp only [bytesOfWord, decodeBytes, wordOfBytes_bytesOfWord]
  cases decode w <;> rfl

/-! ### The fields of an encoded word (R62 to R67) -/

section fields
variable (f7 : BitVec 7) (rs2 rs1 rd : RegIdx) (f3 : BitVec 3) (o : BitVec 7) (i12 : BitVec 12)
  (i13 : BitVec 13) (i20 : BitVec 20) (i21 : BitVec 21)

@[simp] theorem opcodeField_encodeR : opcodeField (encodeR f7 rs2 rs1 f3 rd o) = o := by
  unfold opcodeField encodeR
  rw [BitVec.extractLsb'_append_eq_of_add_le (by decide)]
  simp

@[simp] theorem opcodeField_encodeI : opcodeField (encodeI i12 rs1 f3 rd o) = o := by
  unfold opcodeField encodeI
  rw [BitVec.extractLsb'_append_eq_of_add_le (by decide)]
  simp

@[simp] theorem opcodeField_encodeS : opcodeField (encodeS i12 rs2 rs1 f3 o) = o := by
  unfold opcodeField encodeS
  rw [BitVec.extractLsb'_append_eq_of_add_le (by decide)]
  simp

@[simp] theorem opcodeField_encodeB : opcodeField (encodeB i13 rs2 rs1 f3 o) = o := by
  unfold opcodeField encodeB
  rw [BitVec.extractLsb'_append_eq_of_add_le (by decide)]
  simp

@[simp] theorem opcodeField_encodeU : opcodeField (encodeU i20 rd o) = o := by
  unfold opcodeField encodeU
  rw [BitVec.extractLsb'_append_eq_of_add_le (by decide)]
  simp

@[simp] theorem opcodeField_encodeJ : opcodeField (encodeJ i21 rd o) = o := by
  unfold opcodeField encodeJ
  rw [BitVec.extractLsb'_append_eq_of_add_le (by decide)]
  simp

@[simp] theorem rdField_encodeR : rdField (encodeR f7 rs2 rs1 f3 rd o) = rd := by
  unfold rdField encodeR
  repeat rw [BitVec.extractLsb'_append_eq_of_le (by decide)]
  rw [BitVec.extractLsb'_append_eq_of_add_le (by decide)]
  simp

@[simp] theorem rdField_encodeI : rdField (encodeI i12 rs1 f3 rd o) = rd := by
  unfold rdField encodeI
  repeat rw [BitVec.extractLsb'_append_eq_of_le (by decide)]
  rw [BitVec.extractLsb'_append_eq_of_add_le (by decide)]
  simp

@[simp] theorem rdField_encodeU : rdField (encodeU i20 rd o) = rd := by
  unfold rdField encodeU
  repeat rw [BitVec.extractLsb'_append_eq_of_le (by decide)]
  rw [BitVec.extractLsb'_append_eq_of_add_le (by decide)]
  simp

@[simp] theorem rdField_encodeJ : rdField (encodeJ i21 rd o) = rd := by
  unfold rdField encodeJ
  repeat rw [BitVec.extractLsb'_append_eq_of_le (by decide)]
  rw [BitVec.extractLsb'_append_eq_of_add_le (by decide)]
  simp

@[simp] theorem funct3Field_encodeR : funct3Field (encodeR f7 rs2 rs1 f3 rd o) = f3 := by
  unfold funct3Field encodeR
  repeat rw [BitVec.extractLsb'_append_eq_of_le (by decide)]
  rw [BitVec.extractLsb'_append_eq_of_add_le (by decide)]
  simp

@[simp] theorem funct3Field_encodeI : funct3Field (encodeI i12 rs1 f3 rd o) = f3 := by
  unfold funct3Field encodeI
  repeat rw [BitVec.extractLsb'_append_eq_of_le (by decide)]
  rw [BitVec.extractLsb'_append_eq_of_add_le (by decide)]
  simp

@[simp] theorem funct3Field_encodeS : funct3Field (encodeS i12 rs2 rs1 f3 o) = f3 := by
  unfold funct3Field encodeS
  repeat rw [BitVec.extractLsb'_append_eq_of_le (by decide)]
  rw [BitVec.extractLsb'_append_eq_of_add_le (by decide)]
  simp

@[simp] theorem funct3Field_encodeB : funct3Field (encodeB i13 rs2 rs1 f3 o) = f3 := by
  unfold funct3Field encodeB
  repeat rw [BitVec.extractLsb'_append_eq_of_le (by decide)]
  rw [BitVec.extractLsb'_append_eq_of_add_le (by decide)]
  simp

@[simp] theorem rs1Field_encodeR : rs1Field (encodeR f7 rs2 rs1 f3 rd o) = rs1 := by
  unfold rs1Field encodeR
  repeat rw [BitVec.extractLsb'_append_eq_of_le (by decide)]
  rw [BitVec.extractLsb'_append_eq_of_add_le (by decide)]
  simp

@[simp] theorem rs1Field_encodeI : rs1Field (encodeI i12 rs1 f3 rd o) = rs1 := by
  unfold rs1Field encodeI
  repeat rw [BitVec.extractLsb'_append_eq_of_le (by decide)]
  rw [BitVec.extractLsb'_append_eq_of_add_le (by decide)]
  simp

@[simp] theorem rs1Field_encodeS : rs1Field (encodeS i12 rs2 rs1 f3 o) = rs1 := by
  unfold rs1Field encodeS
  repeat rw [BitVec.extractLsb'_append_eq_of_le (by decide)]
  rw [BitVec.extractLsb'_append_eq_of_add_le (by decide)]
  simp

@[simp] theorem rs1Field_encodeB : rs1Field (encodeB i13 rs2 rs1 f3 o) = rs1 := by
  unfold rs1Field encodeB
  repeat rw [BitVec.extractLsb'_append_eq_of_le (by decide)]
  rw [BitVec.extractLsb'_append_eq_of_add_le (by decide)]
  simp

@[simp] theorem rs2Field_encodeR : rs2Field (encodeR f7 rs2 rs1 f3 rd o) = rs2 := by
  unfold rs2Field encodeR
  repeat rw [BitVec.extractLsb'_append_eq_of_le (by decide)]
  rw [BitVec.extractLsb'_append_eq_of_add_le (by decide)]
  simp

@[simp] theorem rs2Field_encodeS : rs2Field (encodeS i12 rs2 rs1 f3 o) = rs2 := by
  unfold rs2Field encodeS
  repeat rw [BitVec.extractLsb'_append_eq_of_le (by decide)]
  rw [BitVec.extractLsb'_append_eq_of_add_le (by decide)]
  simp

@[simp] theorem rs2Field_encodeB : rs2Field (encodeB i13 rs2 rs1 f3 o) = rs2 := by
  unfold rs2Field encodeB
  repeat rw [BitVec.extractLsb'_append_eq_of_le (by decide)]
  rw [BitVec.extractLsb'_append_eq_of_add_le (by decide)]
  simp

@[simp] theorem funct7Field_encodeR : funct7Field (encodeR f7 rs2 rs1 f3 rd o) = f7 := by
  unfold funct7Field encodeR
  repeat rw [BitVec.extractLsb'_append_eq_of_le (by decide)]
  simp

@[simp] theorem immI_encodeI : immI (encodeI i12 rs1 f3 rd o) = i12 := by
  unfold immI encodeI
  repeat rw [BitVec.extractLsb'_append_eq_of_le (by decide)]
  simp

theorem encodeS_hi : (encodeS i12 rs2 rs1 f3 o).extractLsb' 25 7 = i12.extractLsb' 5 7 := by
  unfold encodeS
  repeat rw [BitVec.extractLsb'_append_eq_of_le (by decide)]
  simp

theorem encodeS_lo : (encodeS i12 rs2 rs1 f3 o).extractLsb' 7 5 = i12.extractLsb' 0 5 := by
  unfold encodeS
  repeat rw [BitVec.extractLsb'_append_eq_of_le (by decide)]
  rw [BitVec.extractLsb'_append_eq_of_add_le (by decide)]
  simp

@[simp] theorem immS_encodeS : immS (encodeS i12 rs2 rs1 f3 o) = i12 := by
  unfold immS
  rw [encodeS_hi, encodeS_lo]
  apply BitVec.eq_of_getLsbD_eq
  intro i hi
  repeat rw [BitVec.getLsbD_append]
  interval_cases i <;> simp

theorem encodeB_12 : (encodeB i13 rs2 rs1 f3 o).extractLsb' 31 1 = i13.extractLsb' 12 1 := by
  unfold encodeB
  repeat rw [BitVec.extractLsb'_append_eq_of_le (by decide)]
  simp

theorem encodeB_11 : (encodeB i13 rs2 rs1 f3 o).extractLsb' 7 1 = i13.extractLsb' 11 1 := by
  unfold encodeB
  repeat rw [BitVec.extractLsb'_append_eq_of_le (by decide)]
  rw [BitVec.extractLsb'_append_eq_of_add_le (by decide)]
  simp

theorem encodeB_10_5 : (encodeB i13 rs2 rs1 f3 o).extractLsb' 25 6 = i13.extractLsb' 5 6 := by
  unfold encodeB
  repeat rw [BitVec.extractLsb'_append_eq_of_le (by decide)]
  rw [BitVec.extractLsb'_append_eq_of_add_le (by decide)]
  simp

theorem encodeB_4_1 : (encodeB i13 rs2 rs1 f3 o).extractLsb' 8 4 = i13.extractLsb' 1 4 := by
  unfold encodeB
  repeat rw [BitVec.extractLsb'_append_eq_of_le (by decide)]
  rw [BitVec.extractLsb'_append_eq_of_add_le (by decide)]
  simp

/-- The B-immediate comes back when its bit 0 is clear (R72). -/
theorem immB_encodeB (h : i13.getLsbD 0 = false) : immB (encodeB i13 rs2 rs1 f3 o) = i13 := by
  unfold immB
  rw [encodeB_12, encodeB_11, encodeB_10_5, encodeB_4_1]
  simp at h
  apply BitVec.eq_of_getLsbD_eq
  intro i hi
  repeat rw [BitVec.getLsbD_append]
  interval_cases i <;> simp [h]

theorem encodeU_imm : (encodeU i20 rd o).extractLsb' 12 20 = i20 := by
  unfold encodeU
  repeat rw [BitVec.extractLsb'_append_eq_of_le (by decide)]
  simp

@[simp] theorem immU_encodeU : (immU (encodeU i20 rd o)).extractLsb' 12 20 = i20 := by
  unfold immU
  rw [encodeU_imm, BitVec.extractLsb'_append_eq_of_le (by decide)]
  simp

theorem encodeJ_20 : (encodeJ i21 rd o).extractLsb' 31 1 = i21.extractLsb' 20 1 := by
  unfold encodeJ
  repeat rw [BitVec.extractLsb'_append_eq_of_le (by decide)]
  simp

theorem encodeJ_10_1 : (encodeJ i21 rd o).extractLsb' 21 10 = i21.extractLsb' 1 10 := by
  unfold encodeJ
  repeat rw [BitVec.extractLsb'_append_eq_of_le (by decide)]
  rw [BitVec.extractLsb'_append_eq_of_add_le (by decide)]
  simp

theorem encodeJ_11 : (encodeJ i21 rd o).extractLsb' 20 1 = i21.extractLsb' 11 1 := by
  unfold encodeJ
  repeat rw [BitVec.extractLsb'_append_eq_of_le (by decide)]
  rw [BitVec.extractLsb'_append_eq_of_add_le (by decide)]
  simp

theorem encodeJ_19_12 : (encodeJ i21 rd o).extractLsb' 12 8 = i21.extractLsb' 12 8 := by
  unfold encodeJ
  repeat rw [BitVec.extractLsb'_append_eq_of_le (by decide)]
  rw [BitVec.extractLsb'_append_eq_of_add_le (by decide)]
  simp

/-- The J-immediate comes back when its bit 0 is clear (R74). -/
theorem immJ_encodeJ (h : i21.getLsbD 0 = false) : immJ (encodeJ i21 rd o) = i21 := by
  unfold immJ
  rw [encodeJ_20, encodeJ_19_12, encodeJ_11, encodeJ_10_1]
  simp at h
  apply BitVec.eq_of_getLsbD_eq
  intro i hi
  repeat rw [BitVec.getLsbD_append]
  interval_cases i <;> simp [h]

/-- Bit 0 of a B-immediate is always 0 (R72). -/
@[simp] theorem immB_bit0 (w : Word) : (immB w).getLsbD 0 = false := by
  unfold immB
  rw [BitVec.getLsbD_append]
  rfl

/-- Bit 0 of a J-immediate is always 0 (R74). -/
@[simp] theorem immJ_bit0 (w : Word) : (immJ w).getLsbD 0 = false := by
  unfold immJ
  rw [BitVec.getLsbD_append]
  rfl

/-- The shift amount and the checked field of an immediate shift put together (R120). -/
@[simp] theorem shamtOf_append (c : BitVec 7) (shamt : BitVec 5) : shamtOf (c ++ shamt) = shamt := by
  unfold shamtOf
  rw [BitVec.extractLsb'_append_eq_of_add_le (by decide)]
  simp

@[simp] theorem shiftCheckOf_append (c : BitVec 7) (shamt : BitVec 5) : shiftCheckOf (c ++ shamt) = c := by
  unfold shiftCheckOf
  rw [BitVec.extractLsb'_append_eq_of_le (by decide)]
  simp

end fields

/-! ### A word put together from its own fields -/

theorem encodeR_fields (w : Word) :
    encodeR (funct7Field w) (rs2Field w) (rs1Field w) (funct3Field w) (rdField w) (opcodeField w) = w := by
  unfold encodeR
  apply BitVec.eq_of_getLsbD_eq
  intro i hi
  repeat rw [BitVec.getLsbD_append]
  interval_cases i <;> simp [funct7Field, rs2Field, rs1Field, funct3Field, rdField, opcodeField]

theorem encodeI_fields (w : Word) :
    encodeI (immI w) (rs1Field w) (funct3Field w) (rdField w) (opcodeField w) = w := by
  unfold encodeI
  apply BitVec.eq_of_getLsbD_eq
  intro i hi
  repeat rw [BitVec.getLsbD_append]
  interval_cases i <;> simp [immI, rs1Field, funct3Field, rdField, opcodeField]

theorem encodeU_fields (w : Word) :
    encodeU (w.extractLsb' 12 20) (rdField w) (opcodeField w) = w := by
  unfold encodeU
  apply BitVec.eq_of_getLsbD_eq
  intro i hi
  repeat rw [BitVec.getLsbD_append]
  interval_cases i <;> simp [rdField, opcodeField]

theorem immS_11_5 (w : Word) : (immS w).extractLsb' 5 7 = w.extractLsb' 25 7 := by
  unfold immS
  repeat rw [BitVec.extractLsb'_append_eq_of_le (by decide)]
  simp

theorem immS_4_0 (w : Word) : (immS w).extractLsb' 0 5 = w.extractLsb' 7 5 := by
  unfold immS
  repeat (first
    | rw [BitVec.extractLsb'_append_eq_of_le (by decide)]
    | rw [BitVec.extractLsb'_append_eq_of_add_le (by decide)])
  simp

theorem immB_12 (w : Word) : (immB w).extractLsb' 12 1 = w.extractLsb' 31 1 := by
  unfold immB
  repeat rw [BitVec.extractLsb'_append_eq_of_le (by decide)]
  simp

theorem immB_10_5 (w : Word) : (immB w).extractLsb' 5 6 = w.extractLsb' 25 6 := by
  unfold immB
  repeat (first
    | rw [BitVec.extractLsb'_append_eq_of_le (by decide)]
    | rw [BitVec.extractLsb'_append_eq_of_add_le (by decide)])
  simp

theorem immB_4_1 (w : Word) : (immB w).extractLsb' 1 4 = w.extractLsb' 8 4 := by
  unfold immB
  repeat (first
    | rw [BitVec.extractLsb'_append_eq_of_le (by decide)]
    | rw [BitVec.extractLsb'_append_eq_of_add_le (by decide)])
  simp

theorem immB_11 (w : Word) : (immB w).extractLsb' 11 1 = w.extractLsb' 7 1 := by
  unfold immB
  repeat (first
    | rw [BitVec.extractLsb'_append_eq_of_le (by decide)]
    | rw [BitVec.extractLsb'_append_eq_of_add_le (by decide)])
  simp

theorem immJ_20 (w : Word) : (immJ w).extractLsb' 20 1 = w.extractLsb' 31 1 := by
  unfold immJ
  repeat rw [BitVec.extractLsb'_append_eq_of_le (by decide)]
  simp

theorem immJ_10_1 (w : Word) : (immJ w).extractLsb' 1 10 = w.extractLsb' 21 10 := by
  unfold immJ
  repeat (first
    | rw [BitVec.extractLsb'_append_eq_of_le (by decide)]
    | rw [BitVec.extractLsb'_append_eq_of_add_le (by decide)])
  simp

theorem immJ_11 (w : Word) : (immJ w).extractLsb' 11 1 = w.extractLsb' 20 1 := by
  unfold immJ
  repeat (first
    | rw [BitVec.extractLsb'_append_eq_of_le (by decide)]
    | rw [BitVec.extractLsb'_append_eq_of_add_le (by decide)])
  simp

theorem immJ_19_12 (w : Word) : (immJ w).extractLsb' 12 8 = w.extractLsb' 12 8 := by
  unfold immJ
  repeat (first
    | rw [BitVec.extractLsb'_append_eq_of_le (by decide)]
    | rw [BitVec.extractLsb'_append_eq_of_add_le (by decide)])
  simp

theorem encodeS_fields (w : Word) :
    encodeS (immS w) (rs2Field w) (rs1Field w) (funct3Field w) (opcodeField w) = w := by
  unfold encodeS
  rw [immS_11_5, immS_4_0]
  apply BitVec.eq_of_getLsbD_eq
  intro i hi
  repeat rw [BitVec.getLsbD_append]
  interval_cases i <;> simp [rs2Field, rs1Field, funct3Field, opcodeField]

theorem encodeB_fields (w : Word) :
    encodeB (immB w) (rs2Field w) (rs1Field w) (funct3Field w) (opcodeField w) = w := by
  unfold encodeB
  rw [immB_12, immB_10_5, immB_4_1, immB_11]
  apply BitVec.eq_of_getLsbD_eq
  intro i hi
  repeat rw [BitVec.getLsbD_append]
  interval_cases i <;> simp [rs2Field, rs1Field, funct3Field, opcodeField]

theorem encodeJ_fields (w : Word) :
    encodeJ (immJ w) (rdField w) (opcodeField w) = w := by
  unfold encodeJ
  rw [immJ_20, immJ_10_1, immJ_11, immJ_19_12]
  apply BitVec.eq_of_getLsbD_eq
  intro i hi
  repeat rw [BitVec.getLsbD_append]
  interval_cases i <;> simp [rdField, opcodeField]

/-! ### What a match under a mask says of the fields (R89) -/

theorem opcodeField_of_mask {w m v : Word} (h : w &&& m = v) (hm : m.extractLsb' 0 7 = 127#7 := by decide) :
    opcodeField w = v.extractLsb' 0 7 := by
  subst h
  simp only [opcodeField, BitVec.extractLsb'_and, hm]
  exact (BitVec.and_allOnes (w := 7)).symm

theorem funct3Field_of_mask {w m v : Word} (h : w &&& m = v) (hm : m.extractLsb' 12 3 = 7#3 := by decide) :
    funct3Field w = v.extractLsb' 12 3 := by
  subst h
  simp only [funct3Field, BitVec.extractLsb'_and, hm]
  exact (BitVec.and_allOnes (w := 3)).symm

theorem funct7Field_of_mask {w m v : Word} (h : w &&& m = v) (hm : m.extractLsb' 25 7 = 127#7 := by decide) :
    funct7Field w = v.extractLsb' 25 7 := by
  subst h
  simp only [funct7Field, BitVec.extractLsb'_and, hm]
  exact (BitVec.and_allOnes (w := 7)).symm

/-- Where funct3[2] is not read, a match leaves two values of funct3 (R82, R83). -/
theorem funct3Field_of_width_mask {w m v : Word} (h : w &&& m = v)
    (hm : m.extractLsb' 12 3 = 3#3 := by decide) :
    funct3Field w = v.extractLsb' 12 3 ∨ funct3Field w = v.extractLsb' 12 3 + 4#3 := by
  have key : ∀ f : BitVec 3, f = (f &&& 3#3) ∨ f = (f &&& 3#3) + 4#3 := by decide
  have e : funct3Field w &&& 3#3 = v.extractLsb' 12 3 := by
    subst h
    simp only [funct3Field, BitVec.extractLsb'_and, hm]
  rw [← e]
  exact key _

/-! ### The parts of an I-immediate an immediate shift reads (R120) -/

theorem shiftCheckOf_immI (w : Word) : shiftCheckOf (immI w) = funct7Field w := by
  apply BitVec.eq_of_getLsbD_eq
  intro i hi
  have : 5 + i < 12 := by omega
  simp [shiftCheckOf, immI, funct7Field, hi, this]
  congr 1
  omega

theorem shamtOf_immI (w : Word) : shamtOf (immI w) = w.extractLsb' 20 5 := by
  apply BitVec.eq_of_getLsbD_eq
  intro i hi
  have : i < 12 := by omega
  simp [shamtOf, immI, hi, this]

theorem immI_eq_append (imm12 : BitVec 12) : imm12 = shiftCheckOf imm12 ++ shamtOf imm12 := by
  apply BitVec.eq_of_getLsbD_eq
  intro i hi
  rw [BitVec.getLsbD_append]
  interval_cases i <;> simp [shiftCheckOf, shamtOf]

theorem immU_31_12 (w : Word) : (immU w).extractLsb' 12 20 = w.extractLsb' 12 20 := by
  unfold immU
  rw [BitVec.extractLsb'_append_eq_of_le (by decide)]
  simp

end Sys2Proof
end

