-- ==== Sys2Proof/Laws/State.lean ====
section
/-! SUPPORT. The small lemmas of the state: one per field per update, and what a register or byte read gives after an update. -/

namespace Sys2Proof.Machine

/-! ### Fields after `setPc` -/

@[simp] theorem setPc_pc (s : State) (t : Word) : (setPc s t).pc = t := rfl
@[simp] theorem setPc_regs (s : State) (t : Word) : (setPc s t).regs = s.regs := rfl
@[simp] theorem setPc_mem (s : State) (t : Word) : (setPc s t).mem = s.mem := rfl
@[simp] theorem setPc_config (s : State) (t : Word) : (setPc s t).config = s.config := rfl

/-! ### Fields after `forceZero` -/

@[simp] theorem forceZero_pc (s : State) : (forceZero s).pc = s.pc := rfl
@[simp] theorem forceZero_regs (s : State) : (forceZero s).regs = s.regs.set 0 0#32 := rfl
@[simp] theorem forceZero_mem (s : State) : (forceZero s).mem = s.mem := rfl
@[simp] theorem forceZero_config (s : State) : (forceZero s).config = s.config := rfl

/-! ### Fields after `writeReg` -/

@[simp] theorem writeReg_zero (s : State) (v : Word) : writeReg s 0#5 v = s := rfl

@[simp] theorem writeReg_pc (s : State) (rd : RegIdx) (v : Word) : (writeReg s rd v).pc = s.pc := by
  unfold writeReg; split <;> rfl

@[simp] theorem writeReg_mem (s : State) (rd : RegIdx) (v : Word) : (writeReg s rd v).mem = s.mem := by
  unfold writeReg; split <;> rfl

@[simp] theorem writeReg_config (s : State) (rd : RegIdx) (v : Word) : (writeReg s rd v).config = s.config := by
  unfold writeReg; split <;> rfl

/-! ### Fields after a change of memory -/

@[simp] theorem withMem_pc (s : State) (m : Memory) : ({ s with mem := m } : State).pc = s.pc := rfl
@[simp] theorem withMem_regs (s : State) (m : Memory) : ({ s with mem := m } : State).regs = s.regs := rfl
@[simp] theorem withMem_mem (s : State) (m : Memory) : ({ s with mem := m } : State).mem = m := rfl
@[simp] theorem withMem_config (s : State) (m : Memory) : ({ s with mem := m } : State).config = s.config := rfl

/-! ### Reading a register -/

@[simp] theorem readReg_zero (s : State) : readReg s 0#5 = 0#32 := rfl

/-- Reads depend on the registers only. -/
theorem readReg_congr {s t : State} (h : s.regs = t.regs) (r : RegIdx) : readReg s r = readReg t r := by
  simp [readReg, h]

@[simp] theorem readReg_setPc (s : State) (t : Word) (r : RegIdx) : readReg (setPc s t) r = readReg s r := rfl

@[simp] theorem readReg_withMem (s : State) (m : Memory) (r : RegIdx) :
    readReg { s with mem := m } r = readReg s r := rfl

@[simp] theorem readReg_forceZero (s : State) (r : RegIdx) : readReg (forceZero s) r = readReg s r := by
  unfold readReg
  split
  · rfl
  · rename_i h
    have : (0 : Nat) ≠ r.toNat := fun e => h (BitVec.eq_of_toNat_eq (by simpa using e.symm))
    simp [this]

/-- What a read gives after a write: the written value in its own register, unless that is `x0`. -/
theorem readReg_writeReg (s : State) (rd r : RegIdx) (v : Word) :
    readReg (writeReg s rd v) r = if r = rd ∧ r ≠ 0#5 then v else readReg s r := by
  by_cases hz : rd = 0#5
  · subst hz; by_cases hr : r = 0#5 <;> simp [hr]
  · by_cases hr : r = 0#5
    · simp [hr]
    · by_cases h : r = rd
      · subst h; simp [readReg, writeReg, hz]
      · have : rd.toNat ≠ r.toNat := fun e => h (BitVec.eq_of_toNat_eq e.symm)
        simp [readReg, writeReg, hz, hr, h, this]

@[simp] theorem readReg_writeReg_same (s : State) (rd : RegIdx) (v : Word) (h : rd ≠ 0#5) :
    readReg (writeReg s rd v) rd = v := by
  simp [readReg_writeReg, h]

@[simp] theorem readReg_writeReg_ne (s : State) (rd r : RegIdx) (v : Word) (h : r ≠ rd) :
    readReg (writeReg s rd v) r = readReg s r := by
  simp [readReg_writeReg, h]

/-- A register other than `x0` reads as its storage. -/
theorem readReg_eq (s : State) (r : RegIdx) (h : r ≠ 0#5) : readReg s r = s.regs[r.toNat]'r.isLt := by
  simp [readReg, h]

/-- `x[0]` is 0 in storage after the force (R92, R96). -/
@[simp] theorem forceZero_zero (s : State) : (forceZero s).regs[0] = 0#32 := by
  simp

/-- The force changes nothing in a state that keeps the invariant of R22. -/
theorem forceZero_of_zero {s : State} (h : s.regs[0] = 0#32) : forceZero s = s := by
  have : s.regs.set 0 0#32 = s.regs := by
    rw [← h]; exact Vector.set_getElem_self ..
  simp [forceZero, this]

@[simp] theorem forceZero_forceZero (s : State) : forceZero (forceZero s) = forceZero s :=
  forceZero_of_zero (forceZero_zero s)

/-- A write does not touch the storage of `x[0]` (R22). -/
theorem writeReg_regs_zero (s : State) (rd : RegIdx) (v : Word) : (writeReg s rd v).regs[0] = s.regs[0] := by
  unfold writeReg
  split
  · rfl
  · rename_i h
    have : rd.toNat ≠ 0 := fun e => h (BitVec.eq_of_toNat_eq (by simpa using e))
    simp [this]

/-- Two states are equal when their four fields are. -/
theorem State.ext_fields {s t : State} (h1 : s.pc = t.pc) (h2 : s.regs = t.regs) (h3 : s.mem = t.mem)
    (h4 : s.config = t.config) : s = t := by
  cases s; cases t; simp_all

/-! ### Reading a byte -/

/-- A byte read depends on the memory only. -/
theorem byteAt_congr {s t : State} (h : s.mem = t.mem) (a : Nat) : byteAt s a = byteAt t a := by
  simp [byteAt, h]

@[simp] theorem byteAt_setPc (s : State) (t : Word) (a : Nat) : byteAt (setPc s t) a = byteAt s a := rfl

@[simp] theorem byteAt_forceZero (s : State) (a : Nat) : byteAt (forceZero s) a = byteAt s a := rfl

@[simp] theorem byteAt_writeReg (s : State) (rd : RegIdx) (v : Word) (a : Nat) :
    byteAt (writeReg s rd v) a = byteAt s a := byteAt_congr (by simp) a

end Sys2Proof.Machine
end

