-- ==== Sys2Proof/Laws/Memory.lean ====
section
/-! SUPPORT. The laws of memory: read after write, the canonical form and the storage bound kept by every operation, and the
checked accesses. -/

namespace Sys2Proof.Machine

/-! ### One byte -/

@[simp] theorem Memory.get_nil (a : Nat) : Memory.get [] a = none := rfl

/-- An address below every listed one has not been written. -/
theorem Memory.get_eq_none_of_lt {m : Memory} {a : Nat} (h : ∀ c ∈ m, a < c.1) : Memory.get m a = none := by
  induction m with
  | nil => rfl
  | cons c m ih =>
    obtain ⟨k, b⟩ := c
    have hk : a < k := h (k, b) (by simp)
    simp [Memory.get, Nat.ne_of_lt hk, ih fun c hc => h c (by simp [hc])]

/-- Read after write: the written byte at its own address, every other address as before. -/
theorem Memory.get_set (m : Memory) (a x : Nat) (v : Byte) :
    Memory.get (Memory.set m a v) x = if x = a then some v else Memory.get m x := by
  induction m with
  | nil => simp [Memory.set, Memory.get]
  | cons c m ih =>
    obtain ⟨k, b⟩ := c
    unfold Memory.set
    split
    · simp [Memory.get]
    · split
      · rename_i h; subst h
        by_cases hx : x = a <;> simp [Memory.get, hx]
      · rename_i h
        by_cases hx : x = k
        · subst hx; simp [Memory.get, Ne.symm h]
        · simp [Memory.get, hx, ih]

@[simp] theorem Memory.get_set_same (m : Memory) (a : Nat) (v : Byte) :
    Memory.get (Memory.set m a v) a = some v := by
  simp [Memory.get_set]

@[simp] theorem Memory.get_set_ne (m : Memory) (a x : Nat) (v : Byte) (h : x ≠ a) :
    Memory.get (Memory.set m a v) x = Memory.get m x := by
  simp [Memory.get_set, h]

/-- Whatever a write lists was listed before, or is the written byte. -/
theorem Memory.mem_set {m : Memory} {a : Nat} {v : Byte} {c : Host.Cell} (h : c ∈ Memory.set m a v) :
    c = (a, v) ∨ c ∈ m := by
  induction m with
  | nil => simpa [Memory.set] using h
  | cons d m ih =>
    obtain ⟨k, b⟩ := d
    unfold Memory.set at h
    split at h
    · simpa using h
    · split at h
      · simp at h ⊢; tauto
      · simp at h
        rcases h with h | h
        · simp [h]
        · rcases ih h with h | h <;> simp [h]

/-- A write keeps the canonical form. -/
theorem Memory.set_wf {m : Memory} (h : Memory.wf m) (a : Nat) (v : Byte) : Memory.wf (Memory.set m a v) := by
  induction m with
  | nil => simp [Memory.set, Memory.wf]
  | cons c m ih =>
    obtain ⟨k, b⟩ := c
    have hk : ∀ d ∈ m, k < d.1 := (List.pairwise_cons.mp h).1
    have hm : Memory.wf m := (List.pairwise_cons.mp h).2
    unfold Memory.set
    split
    · rename_i hlt
      refine List.pairwise_cons.mpr ⟨fun d hd => ?_, h⟩
      rcases List.mem_cons.mp hd with rfl | hd
      · exact hlt
      · exact Nat.lt_trans hlt (hk d hd)
    · split
      · rename_i he; subst he
        exact List.pairwise_cons.mpr ⟨hk, hm⟩
      · refine List.pairwise_cons.mpr ⟨fun d hd => ?_, ih hm⟩
        rcases Memory.mem_set hd with rfl | hd
        · show k < a
          omega
        · exact hk d hd

/-- A write inside the storage keeps every written byte inside it. -/
theorem Memory.set_within {m : Memory} {cap a : Nat} (h : Memory.Within m cap) (ha : a < cap) (v : Byte) :
    Memory.Within (Memory.set m a v) cap := by
  intro c hc
  rcases Memory.mem_set hc with rfl | hc
  · exact ha
  · exact h c hc

/-! ### The loops of `MemWrite` and `BulkInit` -/

/-- Read after `MemWrite`'s loop: byte `x - a` of the value inside the `n` stored bytes, as before outside them. -/
theorem Memory.get_storeLE (m : Memory) (a n x : Nat) (v : Word) :
    Memory.get (storeLE m a v n) x =
      if a ≤ x ∧ x < a + n then some (byteOf v (x - a)) else Memory.get m x := by
  induction n with
  | zero => simp [storeLE]
  | succ n ih =>
    rw [storeLE, Memory.get_set, ih]
    by_cases hx : x = a + n
    · subst hx; simp
    · have : (a ≤ x ∧ x < a + (n + 1)) ↔ (a ≤ x ∧ x < a + n) := by omega
      simp only [hx, if_false, this]

theorem Memory.storeLE_wf {m : Memory} (h : Memory.wf m) (a : Nat) (v : Word) (n : Nat) :
    Memory.wf (storeLE m a v n) := by
  induction n with
  | zero => exact h
  | succ n ih => exact Memory.set_wf ih _ _

theorem Memory.storeLE_within {m : Memory} {cap a n : Nat} (h : Memory.Within m cap) (ha : a + n ≤ cap) (v : Word) :
    Memory.Within (storeLE m a v n) cap := by
  induction n with
  | zero => exact h
  | succ n ih => exact Memory.set_within (ih (by omega)) (by omega) _

/-- Read after the loader's write: the image's byte inside it, as before outside it (R54). -/
theorem Memory.get_setBytes (m : Memory) (a x : Nat) (bs : List Byte) :
    Memory.get (Memory.setBytes m a bs) x =
      if h : a ≤ x ∧ x < a + bs.length then some (bs[x - a]'(by omega)) else Memory.get m x := by
  induction bs generalizing m a with
  | nil => simp [Memory.setBytes]
  | cons b bs ih =>
    rw [Memory.setBytes, ih, Memory.get_set]
    by_cases hx : x = a
    · subst hx; simp
    · by_cases h : a + 1 ≤ x ∧ x < a + 1 + bs.length
      · have h2 : a ≤ x ∧ x < a + (b :: bs).length := by simp; omega
        rw [dif_pos h, dif_pos h2]
        have : x - a = (x - (a + 1)) + 1 := by omega
        simp [this]
      · have h2 : ¬(a ≤ x ∧ x < a + (b :: bs).length) := by simp; omega
        rw [dif_neg h, dif_neg h2, if_neg hx]

theorem Memory.setBytes_wf {m : Memory} (h : Memory.wf m) (a : Nat) (bs : List Byte) :
    Memory.wf (Memory.setBytes m a bs) := by
  induction bs generalizing m a with
  | nil => exact h
  | cons b bs ih => exact ih (Memory.set_wf h _ _) _

theorem Memory.setBytes_within {m : Memory} {cap a : Nat} {bs : List Byte} (h : Memory.Within m cap)
    (ha : a + bs.length ≤ cap) : Memory.Within (Memory.setBytes m a bs) cap := by
  induction bs generalizing m a with
  | nil => exact h
  | cons b bs ih =>
    simp at ha
    exact ih (Memory.set_within h (by omega) _) (by omega)

/-! ### Bytes of a state after a store -/

/-- The bytes after `MemWrite`'s loop. -/
theorem byteAt_storeLE (s : State) (a n x : Nat) (v : Word) :
    byteAt { s with mem := storeLE s.mem a v n } x =
      if a ≤ x ∧ x < a + n then byteOf v (x - a) else byteAt s x := by
  simp only [byteAt, Memory.get_storeLE]
  split <;> rfl

/-! ### The checked accesses (R41 to R44) -/

theorem memRead_of_inWindow {s : State} {a : Word} {n : Nat} (h : InWindow s.config a n) :
    memRead s a n = some (loadLE s a.toNat n) := by
  simp only [memRead, if_pos h]

theorem memRead_of_not_inWindow {s : State} {a : Word} {n : Nat} (h : ¬InWindow s.config a n) :
    memRead s a n = none := by
  simp only [memRead, if_neg h]

theorem memWrite_of_inWindow {s : State} {a : Word} {n : Nat} (v : Word) (h : InWindow s.config a n) :
    memWrite s a n v = some { s with mem := storeLE s.mem a.toNat v n } := by
  simp only [memWrite, if_pos h]

theorem memWrite_of_not_inWindow {s : State} {a : Word} {n : Nat} (v : Word) (h : ¬InWindow s.config a n) :
    memWrite s a n v = none := by
  simp only [memWrite, if_neg h]

/-- Everything the checked store can do. -/
theorem memWrite_eq_some {s t : State} {a : Word} {n : Nat} {v : Word} (h : memWrite s a n v = some t) :
    InWindow s.config a n ∧ t = { s with mem := storeLE s.mem a.toNat v n } := by
  by_cases hw : InWindow s.config a n
  · rw [memWrite_of_inWindow v hw] at h
    exact ⟨hw, (Option.some.inj h).symm⟩
  · rw [memWrite_of_not_inWindow v hw] at h
    cases h

/-- The value of a load depends on the bytes it reads only. -/
theorem loadLE_congr {s t : State} {a n : Nat} (h : ∀ x, a ≤ x → x < a + n → byteAt s x = byteAt t x) :
    loadLE s a n = loadLE t a n := by
  induction n with
  | zero => rfl
  | succ n ih =>
    rw [loadLE, loadLE, ih fun x h1 h2 => h x h1 (by omega), h (a + n) (by omega) (by omega)]

@[simp] theorem loadLE_setPc (s : State) (t : Word) (a n : Nat) : loadLE (setPc s t) a n = loadLE s a n :=
  loadLE_congr fun _ _ _ => rfl

@[simp] theorem loadLE_forceZero (s : State) (a n : Nat) : loadLE (forceZero s) a n = loadLE s a n :=
  loadLE_congr fun _ _ _ => rfl

@[simp] theorem loadLE_writeReg (s : State) (rd : RegIdx) (v : Word) (a n : Nat) :
    loadLE (writeReg s rd v) a n = loadLE s a n :=
  loadLE_congr fun _ _ _ => by simp

/-- Bit `i` of a loaded value is bit `i % 8` of byte `i / 8` (R42, R47). -/
theorem getLsbD_loadLE (s : State) (a n i : Nat) (hn : n ≤ 4) :
    (loadLE s a n).getLsbD i = (decide (i < 8 * n) && (byteAt s (a + i / 8)).getLsbD (i % 8)) := by
  induction n with
  | zero => simp [loadLE]
  | succ n ih =>
    rw [loadLE, BitVec.getLsbD_or, ih (by omega), BitVec.getLsbD_shiftLeft, BitVec.getLsbD_setWidth]
    by_cases h1 : i < 8 * n
    · have : i < 8 * (n + 1) := by omega
      simp [h1, this]
    · by_cases h2 : i < 8 * (n + 1)
      · have e1 : i / 8 = n := by omega
        have e2 : i % 8 = i - 8 * n := by omega
        have e3 : i < 32 := by omega
        have e4 : i - 8 * n < 32 := by omega
        simp [h1, h2, e1, e2, e3, e4]
      · have : 8 ≤ i - 8 * n := by omega
        simp [h1, h2, BitVec.getLsbD_of_ge _ _ this]

/-- Storing and loading back: the low `n` bytes of the value, zero-extended (R42, R43). -/
theorem loadLE_storeLE (s : State) (a n : Nat) (v : Word) (hn : n ≤ 4) :
    loadLE { s with mem := storeLE s.mem a v n } a n = (v.setWidth (8 * n)).setWidth 32 := by
  apply BitVec.eq_of_getLsbD_eq
  intro i hi
  rw [getLsbD_loadLE _ _ _ _ hn, byteAt_storeLE]
  by_cases h : i < 8 * n
  · have h1 : a ≤ a + i / 8 ∧ a + i / 8 < a + n := by omega
    have h2 : i % 8 < 8 := by omega
    have h3 : 8 * (i / 8) + i % 8 = i := by omega
    simp [h1, h, hi, byteOf, h2, h3]
  · simp [h]

end Sys2Proof.Machine
end

