-- ==== Sys2Proof/Laws/Ops.lean ====
section
/-! SUPPORT. One spec lemma per shared operation of the meanings: everything it can do, said once, so that no proof unfolds it
again. -/

namespace Sys2Proof.Machine

/-- `boolWord` read as a number. -/
theorem boolWord_toNat (c : Bool) : (boolWord c).toNat = if c then 1 else 0 := by
  cases c <;> rfl

/-- `<s` is the order of the signed readings (R7). -/
theorem lessSigned_iff (a b : Word) : lessSigned a b = true ↔ a.toInt < b.toInt := by
  simp [lessSigned, BitVec.slt]

/-- `<u` is the order of the unsigned readings (R7). -/
theorem lessUnsigned_iff (a b : Word) : lessUnsigned a b = true ↔ a.toNat < b.toNat := by
  simp [lessUnsigned, BitVec.ult]

/-- The shift amount is the low five bits: the value modulo 32 (D8). -/
theorem shiftAmount_eq (v : Word) : shiftAmount v = v.toNat % 32 := by
  simp [shiftAmount]

theorem aluRegister_eq (f : Word → Word → Word) (rd rs1 rs2 : RegIdx) (s : State) :
    aluRegister f rd rs1 rs2 s =
      .next (setPc (writeReg s rd (f (readReg s rs1) (readReg s rs2))) (s.pc + 4#32)) := rfl

theorem aluImmediate_eq (f : Word → Word) (rd rs1 : RegIdx) (s : State) :
    aluImmediate f rd rs1 s = .next (setPc (writeReg s rd (f (readReg s rs1))) (s.pc + 4#32)) := rfl

theorem branchIf_eq (cond : Word → Word → Bool) (rs1 rs2 : RegIdx) (imm13 : BitVec 13) (s : State) :
    branchIf cond rs1 rs2 imm13 s =
      .next (setPc s (if cond (readReg s rs1) (readReg s rs2) then s.pc + sext13 imm13 else s.pc + 4#32)) := rfl

theorem jumpAndLink_eq (rd : RegIdx) (target : Word) (s : State) :
    jumpAndLink rd target s = .next (setPc (writeReg s rd (s.pc + 4#32)) target) := rfl

/-- A load inside the window. -/
theorem loadWith_of_inWindow {n : Nat} {extend : Word → Word} {rd rs1 : RegIdx} {imm12 : BitVec 12} {s : State}
    (h : InWindow s.config (effectiveAddress s rs1 imm12) n) :
    loadWith n extend rd rs1 imm12 s =
      .next (setPc (writeReg s rd (extend (loadLE s (effectiveAddress s rs1 imm12).toNat n))) (s.pc + 4#32)) := by
  simp only [loadWith, memRead_of_inWindow h]
  rfl

/-- A load outside the window. -/
theorem loadWith_of_not_inWindow {n : Nat} {extend : Word → Word} {rd rs1 : RegIdx} {imm12 : BitVec 12} {s : State}
    (h : ¬InWindow s.config (effectiveAddress s rs1 imm12) n) :
    loadWith n extend rd rs1 imm12 s = .fault (.memoryOutOfBounds s.pc (effectiveAddress s rs1 imm12) n) := by
  simp only [loadWith, memRead_of_not_inWindow h]
  rfl

/-- A store inside the window. -/
theorem storeWith_of_inWindow {n : Nat} {rs1 rs2 : RegIdx} {imm12 : BitVec 12} {s : State}
    (h : InWindow s.config (effectiveAddress s rs1 imm12) n) :
    storeWith n rs1 rs2 imm12 s =
      .next (setPc { s with mem := storeLE s.mem (effectiveAddress s rs1 imm12).toNat (readReg s rs2) n }
        (s.pc + 4#32)) := by
  simp only [storeWith, memWrite_of_inWindow _ h]
  rfl

/-- A store outside the window: nothing is written. -/
theorem storeWith_of_not_inWindow {n : Nat} {rs1 rs2 : RegIdx} {imm12 : BitVec 12} {s : State}
    (h : ¬InWindow s.config (effectiveAddress s rs1 imm12) n) :
    storeWith n rs1 rs2 imm12 s = .fault (.memoryOutOfBounds s.pc (effectiveAddress s rs1 imm12) n) := by
  simp only [storeWith, memWrite_of_not_inWindow _ h]
  rfl

/-- What reading a register gives after an instruction that writes `rd`. -/
theorem readReg_completed (s : State) (rd r : RegIdx) (v target : Word) :
    readReg (setPc (writeReg s rd v) target) r = if r = rd ∧ r ≠ 0#5 then v else readReg s r := by
  simp [readReg_writeReg]

end Sys2Proof.Machine
end

