-- ==== Sys2Proof/Laws/Exec.lean ====
section
/-! SUPPORT. What an instruction can do, said once (40_execution_engine.md R95): it writes one register, or stores at most four
bytes inside the window, or only sets the pc. Invariants and frames over all instructions cite `exec_next_cases` and
`exec_fault_cases` instead of unfolding `exec`. -/

namespace Sys2Proof.Machine

/-- The pc an instruction may leave: `ipc + 4`, a branch's or JAL's target, or JALR's. -/
def NextPcOf (i : Instr) (s : State) (p : Word) : Prop :=
  p = s.pc + 4#32 ∨
  (∃ rs1 rs2 imm13, (i = .beq rs1 rs2 imm13 ∨ i = .bne rs1 rs2 imm13 ∨ i = .blt rs1 rs2 imm13 ∨
    i = .bge rs1 rs2 imm13 ∨ i = .bltu rs1 rs2 imm13 ∨ i = .bgeu rs1 rs2 imm13) ∧ p = s.pc + sext13 imm13) ∨
  (∃ rd imm21, i = .jal rd imm21 ∧ p = s.pc + sext21 imm21) ∨
  (∃ rd rs1 imm12, i = .jalr rd rs1 imm12 ∧ p = (readReg s rs1 + sext12 imm12) &&& 0xFFFFFFFE#32)

/-- Is the instruction a store? -/
def IsStore : Instr → Prop
  | .sb _ _ _ | .sh _ _ _ | .sw _ _ _ => True
  | _ => False

/-- A load's next state: a register write and `ipc + 4`. -/
theorem loadWith_next {n : Nat} {extend : Word → Word} {rd rs1 : RegIdx} {imm12 : BitVec 12} {s t : State}
    (h : loadWith n extend rd rs1 imm12 s = .next t) :
    InWindow s.config (effectiveAddress s rs1 imm12) n ∧
      t = setPc (writeReg s rd (extend (loadLE s (effectiveAddress s rs1 imm12).toNat n))) (s.pc + 4#32) := by
  by_cases hw : InWindow s.config (effectiveAddress s rs1 imm12) n
  · rw [loadWith_of_inWindow hw] at h
    exact ⟨hw, by cases h; rfl⟩
  · rw [loadWith_of_not_inWindow hw] at h
    cases h

/-- A store's next state: the stored bytes and `ipc + 4`. -/
theorem storeWith_next {n : Nat} {rs1 rs2 : RegIdx} {imm12 : BitVec 12} {s t : State}
    (h : storeWith n rs1 rs2 imm12 s = .next t) :
    InWindow s.config (effectiveAddress s rs1 imm12) n ∧
      t = setPc { s with mem := storeLE s.mem (effectiveAddress s rs1 imm12).toNat (readReg s rs2) n }
        (s.pc + 4#32) := by
  by_cases hw : InWindow s.config (effectiveAddress s rs1 imm12) n
  · rw [storeWith_of_inWindow hw] at h
    exact ⟨hw, by cases h; rfl⟩
  · rw [storeWith_of_not_inWindow hw] at h
    cases h

/-- Every next state of every instruction has one of three shapes (R95). -/
theorem exec_next_cases {i : Instr} {s t : State} (h : exec i s = .next t) :
    (¬IsStore i ∧ ∃ rd v p, NextPcOf i s p ∧ t = setPc (writeReg s rd v) p) ∨
    (¬IsStore i ∧ ∃ p, NextPcOf i s p ∧ t = setPc s p) ∨
    (IsStore i ∧ ∃ a v n, (n = 1 ∨ n = 2 ∨ n = 4) ∧ InWindow s.config a n ∧
      t = setPc { s with mem := storeLE s.mem a.toNat v n } (s.pc + 4#32)) := by
  have br : ∀ {c : Bool} {imm13 : BitVec 13} {p : Word}, p = (if c then s.pc + sext13 imm13 else s.pc + 4#32) →
      p = s.pc + 4#32 ∨ p = s.pc + sext13 imm13 := by
    intro c imm13 p hp; cases c <;> simp_all
  cases i with
  | lb | lh | lw | lbu | lhu =>
    obtain ⟨-, rfl⟩ := loadWith_next h
    exact .inl ⟨id, _, _, _, .inl rfl, rfl⟩
  | sb => obtain ⟨hw, rfl⟩ := storeWith_next h; exact .inr (.inr ⟨trivial, _, _, 1, by simp, hw, rfl⟩)
  | sh => obtain ⟨hw, rfl⟩ := storeWith_next h; exact .inr (.inr ⟨trivial, _, _, 2, by simp, hw, rfl⟩)
  | sw => obtain ⟨hw, rfl⟩ := storeWith_next h; exact .inr (.inr ⟨trivial, _, _, 4, by simp, hw, rfl⟩)
  | beq rs1 rs2 imm13 | bne rs1 rs2 imm13 | blt rs1 rs2 imm13 | bge rs1 rs2 imm13 | bltu rs1 rs2 imm13
  | bgeu rs1 rs2 imm13 =>
    obtain rfl := (Host.Outcome.next.inj h).symm
    refine .inr (.inl ⟨id, _, ?_, rfl⟩)
    rcases br rfl with hp | hp
    · exact .inl hp
    · exact .inr (.inl ⟨rs1, rs2, imm13, by simp, hp⟩)
  | jal rd imm21 =>
    cases h
    exact .inl ⟨id, _, _, _, .inr (.inr (.inl ⟨rd, imm21, rfl, rfl⟩)), rfl⟩
  | jalr rd rs1 imm12 =>
    cases h
    exact .inl ⟨id, _, _, _, .inr (.inr (.inr ⟨rd, rs1, imm12, rfl, rfl⟩)), rfl⟩
  | _ => cases h; exact .inl ⟨id, _, _, _, .inl rfl, rfl⟩

/-- The only error an instruction itself raises is `Memory(OutOfBounds)`, by a load or a store (R204, R208). -/
theorem exec_fault_cases {i : Instr} {s : State} {e : Fault} (h : exec i s = .fault e) :
    ∃ a n, (n = 1 ∨ n = 2 ∨ n = 4) ∧ ¬InWindow s.config a n ∧ e = .memoryOutOfBounds s.pc a n := by
  have hl : ∀ {n : Nat} {extend : Word → Word} {rd rs1 : RegIdx} {imm12 : BitVec 12},
      loadWith n extend rd rs1 imm12 s = .fault e → (n = 1 ∨ n = 2 ∨ n = 4) →
      ∃ a n, (n = 1 ∨ n = 2 ∨ n = 4) ∧ ¬InWindow s.config a n ∧ e = .memoryOutOfBounds s.pc a n := by
    intro n extend rd rs1 imm12 h hn
    by_cases hw : InWindow s.config (effectiveAddress s rs1 imm12) n
    · rw [loadWith_of_inWindow hw] at h; cases h
    · rw [loadWith_of_not_inWindow hw] at h
      exact ⟨_, n, hn, hw, by cases h; rfl⟩
  have hs : ∀ {n : Nat} {rs1 rs2 : RegIdx} {imm12 : BitVec 12},
      storeWith n rs1 rs2 imm12 s = .fault e → (n = 1 ∨ n = 2 ∨ n = 4) →
      ∃ a n, (n = 1 ∨ n = 2 ∨ n = 4) ∧ ¬InWindow s.config a n ∧ e = .memoryOutOfBounds s.pc a n := by
    intro n rs1 rs2 imm12 h hn
    by_cases hw : InWindow s.config (effectiveAddress s rs1 imm12) n
    · rw [storeWith_of_inWindow hw] at h; cases h
    · rw [storeWith_of_not_inWindow hw] at h
      exact ⟨_, n, hn, hw, by cases h; rfl⟩
  cases i with
  | lb => exact hl (n := 1) h (by simp)
  | lh => exact hl (n := 2) h (by simp)
  | lw => exact hl (n := 4) h (by simp)
  | lbu => exact hl (n := 1) h (by simp)
  | lhu => exact hl (n := 2) h (by simp)
  | sb => exact hs (n := 1) h (by simp)
  | sh => exact hs (n := 2) h (by simp)
  | sw => exact hs (n := 4) h (by simp)
  | _ => cases h

/-- No instruction is refused. -/
theorem exec_ne_refused (i : Instr) (s : State) (r : Refusal) : exec i s ≠ .refused r := by
  have hl : ∀ {n : Nat} {extend : Word → Word} {rd rs1 : RegIdx} {imm12 : BitVec 12},
      loadWith n extend rd rs1 imm12 s ≠ .refused r := by
    intro n extend rd rs1 imm12 h
    by_cases hw : InWindow s.config (effectiveAddress s rs1 imm12) n
    · rw [loadWith_of_inWindow hw] at h; cases h
    · rw [loadWith_of_not_inWindow hw] at h; cases h
  have hs : ∀ {n : Nat} {rs1 rs2 : RegIdx} {imm12 : BitVec 12}, storeWith n rs1 rs2 imm12 s ≠ .refused r := by
    intro n rs1 rs2 imm12 h
    by_cases hw : InWindow s.config (effectiveAddress s rs1 imm12) n
    · rw [storeWith_of_inWindow hw] at h; cases h
    · rw [storeWith_of_not_inWindow hw] at h; cases h
  intro h
  cases i with
  | lb => exact hl (n := 1) h
  | lh => exact hl (n := 2) h
  | lw => exact hl (n := 4) h
  | lbu => exact hl (n := 1) h
  | lhu => exact hl (n := 2) h
  | sb => exact hs (n := 1) h
  | sh => exact hs (n := 2) h
  | sw => exact hs (n := 4) h
  | _ => cases h

end Sys2Proof.Machine
end

