-- ==== Sys2Proof/Laws/Meanings.lean ====
section
/-! SUPPORT. One equation per instruction: what `exec` answers, in the terms of the shared operations. Proofs about an
instruction rewrite with its equation and never unfold `exec`. -/

namespace Sys2Proof.Machine

section
variable (rd rs1 rs2 : RegIdx) (imm12 : BitVec 12) (imm13 : BitVec 13) (imm20 : BitVec 20) (imm21 : BitVec 21)
  (shamt : BitVec 5) (s : State)

/-! ### Instructions that write a register and advance -/

theorem exec_add : exec (.add rd rs1 rs2) s =
    .next (setPc (writeReg s rd (readReg s rs1 + readReg s rs2)) (s.pc + 4#32)) := rfl

theorem exec_sub : exec (.sub rd rs1 rs2) s =
    .next (setPc (writeReg s rd (readReg s rs1 - readReg s rs2)) (s.pc + 4#32)) := rfl

theorem exec_sll : exec (.sll rd rs1 rs2) s =
    .next (setPc (writeReg s rd (readReg s rs1 <<< shiftAmount (readReg s rs2))) (s.pc + 4#32)) := rfl

theorem exec_slt : exec (.slt rd rs1 rs2) s =
    .next (setPc (writeReg s rd (boolWord (lessSigned (readReg s rs1) (readReg s rs2)))) (s.pc + 4#32)) := rfl

theorem exec_sltu : exec (.sltu rd rs1 rs2) s =
    .next (setPc (writeReg s rd (boolWord (lessUnsigned (readReg s rs1) (readReg s rs2)))) (s.pc + 4#32)) := rfl

theorem exec_xor : exec (.xor rd rs1 rs2) s =
    .next (setPc (writeReg s rd (readReg s rs1 ^^^ readReg s rs2)) (s.pc + 4#32)) := rfl

theorem exec_srl : exec (.srl rd rs1 rs2) s =
    .next (setPc (writeReg s rd (readReg s rs1 >>> shiftAmount (readReg s rs2))) (s.pc + 4#32)) := rfl

theorem exec_sra : exec (.sra rd rs1 rs2) s =
    .next (setPc (writeReg s rd ((readReg s rs1).sshiftRight (shiftAmount (readReg s rs2)))) (s.pc + 4#32)) := rfl

theorem exec_or : exec (.or rd rs1 rs2) s =
    .next (setPc (writeReg s rd (readReg s rs1 ||| readReg s rs2)) (s.pc + 4#32)) := rfl

theorem exec_and : exec (.and rd rs1 rs2) s =
    .next (setPc (writeReg s rd (readReg s rs1 &&& readReg s rs2)) (s.pc + 4#32)) := rfl

theorem exec_addi : exec (.addi rd rs1 imm12) s =
    .next (setPc (writeReg s rd (readReg s rs1 + sext12 imm12)) (s.pc + 4#32)) := rfl

theorem exec_slti : exec (.slti rd rs1 imm12) s =
    .next (setPc (writeReg s rd (boolWord (lessSigned (readReg s rs1) (sext12 imm12)))) (s.pc + 4#32)) := rfl

theorem exec_sltiu : exec (.sltiu rd rs1 imm12) s =
    .next (setPc (writeReg s rd (boolWord (lessUnsigned (readReg s rs1) (zext12 imm12)))) (s.pc + 4#32)) := rfl

theorem exec_xori : exec (.xori rd rs1 imm12) s =
    .next (setPc (writeReg s rd (readReg s rs1 ^^^ sext12 imm12)) (s.pc + 4#32)) := rfl

theorem exec_ori : exec (.ori rd rs1 imm12) s =
    .next (setPc (writeReg s rd (readReg s rs1 ||| sext12 imm12)) (s.pc + 4#32)) := rfl

theorem exec_andi : exec (.andi rd rs1 imm12) s =
    .next (setPc (writeReg s rd (readReg s rs1 &&& sext12 imm12)) (s.pc + 4#32)) := rfl

theorem exec_slli : exec (.slli rd rs1 shamt) s =
    .next (setPc (writeReg s rd (readReg s rs1 <<< shamt.toNat)) (s.pc + 4#32)) := rfl

theorem exec_srli : exec (.srli rd rs1 shamt) s =
    .next (setPc (writeReg s rd (readReg s rs1 >>> shamt.toNat)) (s.pc + 4#32)) := rfl

theorem exec_srai : exec (.srai rd rs1 shamt) s =
    .next (setPc (writeReg s rd ((readReg s rs1).sshiftRight shamt.toNat)) (s.pc + 4#32)) := rfl

theorem exec_lui : exec (.lui rd imm20) s =
    .next (setPc (writeReg s rd (upperImm imm20)) (s.pc + 4#32)) := rfl

theorem exec_auipc : exec (.auipc rd imm20) s =
    .next (setPc (writeReg s rd (upperImm imm20 + s.pc)) (s.pc + 4#32)) := rfl

/-! ### Branches and jumps -/

theorem exec_beq : exec (.beq rs1 rs2 imm13) s =
    .next (setPc s (if readReg s rs1 == readReg s rs2 then s.pc + sext13 imm13 else s.pc + 4#32)) := rfl

theorem exec_bne : exec (.bne rs1 rs2 imm13) s =
    .next (setPc s (if readReg s rs1 != readReg s rs2 then s.pc + sext13 imm13 else s.pc + 4#32)) := rfl

theorem exec_blt : exec (.blt rs1 rs2 imm13) s =
    .next (setPc s (if lessSigned (readReg s rs1) (readReg s rs2) then s.pc + sext13 imm13 else s.pc + 4#32)) := rfl

theorem exec_bge : exec (.bge rs1 rs2 imm13) s =
    .next (setPc s (if !lessSigned (readReg s rs1) (readReg s rs2) then s.pc + sext13 imm13 else s.pc + 4#32)) := rfl

theorem exec_bltu : exec (.bltu rs1 rs2 imm13) s =
    .next (setPc s (if lessUnsigned (readReg s rs1) (readReg s rs2) then s.pc + sext13 imm13 else s.pc + 4#32)) := rfl

theorem exec_bgeu : exec (.bgeu rs1 rs2 imm13) s =
    .next (setPc s (if !lessUnsigned (readReg s rs1) (readReg s rs2) then s.pc + sext13 imm13 else s.pc + 4#32)) := rfl

theorem exec_jal : exec (.jal rd imm21) s =
    .next (setPc (writeReg s rd (s.pc + 4#32)) (s.pc + sext21 imm21)) := rfl

theorem exec_jalr : exec (.jalr rd rs1 imm12) s =
    .next (setPc (writeReg s rd (s.pc + 4#32)) ((readReg s rs1 + sext12 imm12) &&& 0xFFFFFFFE#32)) := rfl

/-! ### Loads and stores -/

theorem exec_lb : exec (.lb rd rs1 imm12) s = loadWith 1 sextByte rd rs1 imm12 s := rfl

theorem exec_lh : exec (.lh rd rs1 imm12) s = loadWith 2 sextHalf rd rs1 imm12 s := rfl

theorem exec_lw : exec (.lw rd rs1 imm12) s = loadWith 4 (fun v => v) rd rs1 imm12 s := rfl

theorem exec_lbu : exec (.lbu rd rs1 imm12) s = loadWith 1 (fun v => v) rd rs1 imm12 s := rfl

theorem exec_lhu : exec (.lhu rd rs1 imm12) s = loadWith 2 (fun v => v) rd rs1 imm12 s := rfl

theorem exec_sb : exec (.sb rs1 rs2 imm12) s = storeWith 1 rs1 rs2 imm12 s := rfl

theorem exec_sh : exec (.sh rs1 rs2 imm12) s = storeWith 2 rs1 rs2 imm12 s := rfl

theorem exec_sw : exec (.sw rs1 rs2 imm12) s = storeWith 4 rs1 rs2 imm12 s := rfl

end

end Sys2Proof.Machine
end

