-- ==== Sys2Proof/Laws/Operands.lean ====
section
/-! SUPPORT. The operand forms in unbounded integer arithmetic: what each address, target, extension and shift is as a number
modulo 2^32 (00_scope.md R8 to R10). Proofs about results cite these instead of bit-vector facts. -/

namespace Sys2Proof.Machine

/-! ### The 32-bit operations (R10) -/

theorem add_eq_ofNat (a b : Word) : a + b = BitVec.ofNat 32 (a.toNat + b.toNat) := by
  apply BitVec.eq_of_toNat_eq; simp

theorem sub_eq_ofInt (a b : Word) : a - b = BitVec.ofInt 32 (a.toNat - b.toNat) := by
  apply BitVec.eq_of_toInt_eq
  rw [BitVec.toInt_sub, BitVec.toInt_ofInt, BitVec.toInt_eq_toNat_bmod a, BitVec.toInt_eq_toNat_bmod b]
  simp

theorem shiftLeft_eq_ofNat (a : Word) (n : Nat) : a <<< n = BitVec.ofNat 32 (a.toNat * 2 ^ n) := by
  apply BitVec.eq_of_toNat_eq; simp [Nat.shiftLeft_eq]

theorem shiftRight_eq_ofNat (a : Word) (n : Nat) : a >>> n = BitVec.ofNat 32 (a.toNat / 2 ^ n) := by
  apply BitVec.eq_of_toNat_eq
  simp only [BitVec.toNat_ushiftRight, Nat.shiftRight_eq_div_pow, BitVec.toNat_ofNat]
  rw [Nat.mod_eq_of_lt]
  exact Nat.lt_of_le_of_lt (Nat.div_le_self _ _) a.isLt

theorem sshiftRight_eq_ofInt (a : Word) (n : Nat) : a.sshiftRight n = BitVec.ofInt 32 (a.toInt / 2 ^ n) := by
  unfold BitVec.sshiftRight
  rw [Int.shiftRight_eq_div_pow]
  push_cast
  rfl

/-! ### Sign extension and the sums that use it (R8, R76) -/

theorem signExtend_eq_ofInt {n : Nat} (b : BitVec n) (hn : n ≤ 32) : b.signExtend 32 = BitVec.ofInt 32 b.toInt := by
  apply BitVec.eq_of_toInt_eq
  rw [BitVec.toInt_signExtend_of_le hn, BitVec.toInt_ofInt, ← BitVec.toInt_signExtend_of_le hn,
    BitVec.toInt_bmod_cancel]

theorem add_signExtend (a : Word) {n : Nat} (b : BitVec n) (hn : n ≤ 32) :
    a + b.signExtend 32 = BitVec.ofInt 32 (a.toNat + b.toInt) := by
  apply BitVec.eq_of_toInt_eq
  rw [BitVec.toInt_add, BitVec.toInt_signExtend_of_le hn, BitVec.toInt_ofInt, BitVec.toInt_eq_toNat_bmod]
  simp

/-- The effective address (R140, R147). -/
theorem effectiveAddress_eq (s : State) (rs1 : RegIdx) (imm12 : BitVec 12) :
    effectiveAddress s rs1 imm12 = BitVec.ofInt 32 ((readReg s rs1).toNat + imm12.toInt) :=
  add_signExtend _ _ (by decide)

/-- A branch's target (R170). -/
theorem branchTarget_eq (s : State) (imm13 : BitVec 13) :
    branchTarget s imm13 = BitVec.ofInt 32 (s.pc.toNat + imm13.toInt) :=
  add_signExtend _ _ (by decide)

/-- JAL's target (R178). -/
theorem jalTarget_eq (s : State) (imm21 : BitVec 21) :
    jalTarget s imm21 = BitVec.ofInt 32 (s.pc.toNat + imm21.toInt) :=
  add_signExtend _ _ (by decide)

/-- `ipc + 4` (R27, R28). -/
theorem nextPc_eq (s : State) : nextPc s = BitVec.ofNat 32 (s.pc.toNat + 4) :=
  add_eq_ofNat s.pc 4#32

/-- Clearing bit 0 (R179). -/
theorem and_clear_bit0 (a : Word) : a &&& 0xFFFFFFFE#32 = BitVec.ofNat 32 (2 * (a.toNat / 2)) := by
  have h1 : BitVec.ofNat 32 (2 * (a.toNat / 2)) = (a >>> 1) <<< 1 := by
    rw [shiftLeft_eq_ofNat]
    apply BitVec.eq_of_toNat_eq
    simp [Nat.shiftRight_eq_div_pow]
    omega
  rw [h1]
  apply BitVec.eq_of_getLsbD_eq
  intro i hi
  interval_cases i <;> simp

/-- The U-immediate (R73). -/
theorem upperImm_eq (imm20 : BitVec 20) : upperImm imm20 = BitVec.ofNat 32 (imm20.toNat * 2 ^ 12) := by
  apply BitVec.eq_of_toNat_eq
  unfold upperImm
  rw [BitVec.toNat_append]
  simp [Nat.shiftLeft_eq]
  omega

/-! ### Comparison results (R104, R105, R122, R123) -/

theorem boolWord_lessSigned (a b : Word) : boolWord (lessSigned a b) = if a.toInt < b.toInt then 1#32 else 0#32 := by
  by_cases h : a.toInt < b.toInt
  · rw [(lessSigned_iff a b).2 h]; simp [h, boolWord]
  · have : lessSigned a b = false := by rw [← Bool.not_eq_true, lessSigned_iff]; exact h
    simp [h, this, boolWord]

theorem boolWord_lessUnsigned (a b : Word) :
    boolWord (lessUnsigned a b) = if a.toNat < b.toNat then 1#32 else 0#32 := by
  by_cases h : a.toNat < b.toNat
  · rw [(lessUnsigned_iff a b).2 h]; simp [h, boolWord]
  · have : lessUnsigned a b = false := by rw [← Bool.not_eq_true, lessUnsigned_iff]; exact h
    simp [h, this, boolWord]

/-! ### Loaded values as their bytes (R42, R47) -/

theorem loadLE_one (s : State) (a : Nat) : loadLE s a 1 = (byteAt s a).setWidth 32 := by
  simp [loadLE]

theorem loadLE_two (s : State) (a : Nat) : loadLE s a 2 = (byteAt s (a + 1) ++ byteAt s a).setWidth 32 := by
  apply BitVec.eq_of_getLsbD_eq
  intro i hi
  rw [getLsbD_loadLE _ _ _ _ (by decide), BitVec.getLsbD_setWidth, BitVec.getLsbD_append]
  interval_cases i <;> simp

theorem loadLE_four (s : State) (a : Nat) :
    loadLE s a 4 = byteAt s (a + 3) ++ byteAt s (a + 2) ++ byteAt s (a + 1) ++ byteAt s a := by
  apply BitVec.eq_of_getLsbD_eq
  intro i hi
  rw [getLsbD_loadLE _ _ _ _ (by decide)]
  repeat rw [BitVec.getLsbD_append]
  interval_cases i <;> simp

end Sys2Proof.Machine
end

