-- ==== Sys2Proof/Laws/PerInstr.lean ====
section
/-! SUPPORT. Statements about every instruction as syntax, one lemma per constructor.
Family RowOfEncoding: the word an instruction encodes to matches that instruction's row of the opcode table (R89). -/

namespace Sys2Proof.Laws.RowOfEncoding

/-- The encoded word matches the instruction's row: `word &&& mask = match` (R89). -/
def Statement (i : Instr) : Prop := i.row.Matches (encode i)

/-! A mask is itself a word of the format, all ones in the selecting fields and zeros in the operands; masking a word keeps
the selecting fields. -/

section masks
variable (f7 : BitVec 7) (rs2 rs1 rd : RegIdx) (f3 : BitVec 3) (o : BitVec 7) (i12 : BitVec 12)
  (i13 : BitVec 13) (i20 : BitVec 20) (i21 : BitVec 21)

theorem mask_encodeR : encodeR f7 rs2 rs1 f3 rd o &&& 0xFE00707F#32 = encodeR f7 0 0 f3 0 o := by
  have h : 0xFE00707F#32 = encodeR 0x7F#7 0 0 0x7#3 0 0x7F#7 := by decide
  rw [h]; unfold encodeR; repeat rw [BitVec.and_append]
  have e3 : f3 &&& 7#3 = f3 := BitVec.and_allOnes
  have e7 : ∀ x : BitVec 7, x &&& 127#7 = x := fun x => BitVec.and_allOnes
  simp only [e3, e7, BitVec.ofNat_eq_ofNat, BitVec.and_zero]

theorem mask_encodeI (c : BitVec 7) (shamt : BitVec 5) :
    encodeI (c ++ shamt) rs1 f3 rd o &&& 0xFE00707F#32 = encodeI (c ++ 0#5) 0 f3 0 o := by
  have h : 0xFE00707F#32 = encodeI (0x7F#7 ++ 0#5) 0 0x7#3 0 0x7F#7 := by decide
  rw [h]; unfold encodeI; repeat rw [BitVec.and_append]
  have e3 : f3 &&& 7#3 = f3 := BitVec.and_allOnes
  have e7 : ∀ x : BitVec 7, x &&& 127#7 = x := fun x => BitVec.and_allOnes
  simp only [e3, e7, BitVec.ofNat_eq_ofNat, BitVec.and_zero]

theorem mask_encodeI_funct3 : encodeI i12 rs1 f3 rd o &&& 0x0000707F#32 = encodeI 0 0 f3 0 o := by
  have h : 0x0000707F#32 = encodeI 0 0 0x7#3 0 0x7F#7 := by decide
  rw [h]; unfold encodeI; repeat rw [BitVec.and_append]
  have e3 : f3 &&& 7#3 = f3 := BitVec.and_allOnes
  have e7 : ∀ x : BitVec 7, x &&& 127#7 = x := fun x => BitVec.and_allOnes
  simp only [e3, e7, BitVec.ofNat_eq_ofNat, BitVec.and_zero]

theorem mask_encodeI_width : encodeI i12 rs1 f3 rd o &&& 0x0000307F#32 = encodeI 0 0 (f3 &&& 3#3) 0 o := by
  have h : 0x0000307F#32 = encodeI 0 0 0x3#3 0 0x7F#7 := by decide
  rw [h]; unfold encodeI; repeat rw [BitVec.and_append]
  have e7 : ∀ x : BitVec 7, x &&& 127#7 = x := fun x => BitVec.and_allOnes
  simp only [e7, BitVec.ofNat_eq_ofNat, BitVec.and_zero]

theorem mask_encodeI_opcode : encodeI i12 rs1 f3 rd o &&& 0x0000007F#32 = encodeI 0 0 0 0 o := by
  have h : 0x0000007F#32 = encodeI 0 0 0 0 0x7F#7 := by decide
  rw [h]; unfold encodeI; repeat rw [BitVec.and_append]
  have e7 : ∀ x : BitVec 7, x &&& 127#7 = x := fun x => BitVec.and_allOnes
  simp only [e7, BitVec.ofNat_eq_ofNat, BitVec.and_zero]

theorem mask_encodeS : encodeS i12 rs2 rs1 f3 o &&& 0x0000307F#32 = encodeS 0 0 0 (f3 &&& 3#3) o := by
  have h : 0x0000307F#32 = encodeS 0 0 0 0x3#3 0x7F#7 := by decide
  rw [h]; unfold encodeS; repeat rw [BitVec.and_append]
  have e7 : ∀ x : BitVec 7, x &&& 127#7 = x := fun x => BitVec.and_allOnes
  simp [e7]

theorem mask_encodeB : encodeB i13 rs2 rs1 f3 o &&& 0x0000707F#32 = encodeB 0 0 0 f3 o := by
  have h : 0x0000707F#32 = encodeB 0 0 0 0x7#3 0x7F#7 := by decide
  rw [h]; unfold encodeB; repeat rw [BitVec.and_append]
  have e3 : f3 &&& 7#3 = f3 := BitVec.and_allOnes
  have e7 : ∀ x : BitVec 7, x &&& 127#7 = x := fun x => BitVec.and_allOnes
  simp [e3, e7]

theorem mask_encodeU : encodeU i20 rd o &&& 0x0000007F#32 = encodeU 0 0 o := by
  have h : 0x0000007F#32 = encodeU 0 0 0x7F#7 := by decide
  rw [h]; unfold encodeU; repeat rw [BitVec.and_append]
  have e7 : ∀ x : BitVec 7, x &&& 127#7 = x := fun x => BitVec.and_allOnes
  simp only [e7, BitVec.ofNat_eq_ofNat, BitVec.and_zero]

theorem mask_encodeJ : encodeJ i21 rd o &&& 0x0000007F#32 = encodeJ 0 0 o := by
  have h : 0x0000007F#32 = encodeJ 0 0 0x7F#7 := by decide
  rw [h]; unfold encodeJ; repeat rw [BitVec.and_append]
  have e7 : ∀ x : BitVec 7, x &&& 127#7 = x := fun x => BitVec.and_allOnes
  simp [e7]

end masks

theorem lui (rd : RegIdx) (imm20 : BitVec 20) : Statement (.lui rd imm20) :=
  (mask_encodeU ..).trans rfl

theorem auipc (rd : RegIdx) (imm20 : BitVec 20) : Statement (.auipc rd imm20) :=
  (mask_encodeU ..).trans rfl

theorem jal (rd : RegIdx) (imm21 : BitVec 21) : Statement (.jal rd imm21) :=
  (mask_encodeJ ..).trans rfl

theorem jalr (rd rs1 : RegIdx) (imm12 : BitVec 12) : Statement (.jalr rd rs1 imm12) :=
  (mask_encodeI_opcode ..).trans rfl

theorem beq (rs1 rs2 : RegIdx) (imm13 : BitVec 13) : Statement (.beq rs1 rs2 imm13) :=
  (mask_encodeB ..).trans rfl

theorem bne (rs1 rs2 : RegIdx) (imm13 : BitVec 13) : Statement (.bne rs1 rs2 imm13) :=
  (mask_encodeB ..).trans rfl

theorem blt (rs1 rs2 : RegIdx) (imm13 : BitVec 13) : Statement (.blt rs1 rs2 imm13) :=
  (mask_encodeB ..).trans rfl

theorem bge (rs1 rs2 : RegIdx) (imm13 : BitVec 13) : Statement (.bge rs1 rs2 imm13) :=
  (mask_encodeB ..).trans rfl

theorem bltu (rs1 rs2 : RegIdx) (imm13 : BitVec 13) : Statement (.bltu rs1 rs2 imm13) :=
  (mask_encodeB ..).trans rfl

theorem bgeu (rs1 rs2 : RegIdx) (imm13 : BitVec 13) : Statement (.bgeu rs1 rs2 imm13) :=
  (mask_encodeB ..).trans rfl

theorem lb (rd rs1 : RegIdx) (imm12 : BitVec 12) : Statement (.lb rd rs1 imm12) :=
  (mask_encodeI_funct3 ..).trans rfl

theorem lh (rd rs1 : RegIdx) (imm12 : BitVec 12) : Statement (.lh rd rs1 imm12) :=
  (mask_encodeI_funct3 ..).trans rfl

theorem lw (rd rs1 : RegIdx) (imm12 : BitVec 12) : Statement (.lw rd rs1 imm12) :=
  (mask_encodeI_width ..).trans rfl

theorem lbu (rd rs1 : RegIdx) (imm12 : BitVec 12) : Statement (.lbu rd rs1 imm12) :=
  (mask_encodeI_funct3 ..).trans rfl

theorem lhu (rd rs1 : RegIdx) (imm12 : BitVec 12) : Statement (.lhu rd rs1 imm12) :=
  (mask_encodeI_funct3 ..).trans rfl

theorem sb (rs1 rs2 : RegIdx) (imm12 : BitVec 12) : Statement (.sb rs1 rs2 imm12) :=
  (mask_encodeS ..).trans rfl

theorem sh (rs1 rs2 : RegIdx) (imm12 : BitVec 12) : Statement (.sh rs1 rs2 imm12) :=
  (mask_encodeS ..).trans rfl

theorem sw (rs1 rs2 : RegIdx) (imm12 : BitVec 12) : Statement (.sw rs1 rs2 imm12) :=
  (mask_encodeS ..).trans rfl

theorem addi (rd rs1 : RegIdx) (imm12 : BitVec 12) : Statement (.addi rd rs1 imm12) :=
  (mask_encodeI_funct3 ..).trans rfl

theorem slti (rd rs1 : RegIdx) (imm12 : BitVec 12) : Statement (.slti rd rs1 imm12) :=
  (mask_encodeI_funct3 ..).trans rfl

theorem sltiu (rd rs1 : RegIdx) (imm12 : BitVec 12) : Statement (.sltiu rd rs1 imm12) :=
  (mask_encodeI_funct3 ..).trans rfl

theorem xori (rd rs1 : RegIdx) (imm12 : BitVec 12) : Statement (.xori rd rs1 imm12) :=
  (mask_encodeI_funct3 ..).trans rfl

theorem ori (rd rs1 : RegIdx) (imm12 : BitVec 12) : Statement (.ori rd rs1 imm12) :=
  (mask_encodeI_funct3 ..).trans rfl

theorem andi (rd rs1 : RegIdx) (imm12 : BitVec 12) : Statement (.andi rd rs1 imm12) :=
  (mask_encodeI_funct3 ..).trans rfl

theorem slli (rd rs1 : RegIdx) (shamt : BitVec 5) : Statement (.slli rd rs1 shamt) :=
  (mask_encodeI ..).trans rfl

theorem srli (rd rs1 : RegIdx) (shamt : BitVec 5) : Statement (.srli rd rs1 shamt) :=
  (mask_encodeI ..).trans rfl

theorem srai (rd rs1 : RegIdx) (shamt : BitVec 5) : Statement (.srai rd rs1 shamt) :=
  (mask_encodeI ..).trans rfl

theorem add (rd rs1 rs2 : RegIdx) : Statement (.add rd rs1 rs2) :=
  (mask_encodeR ..).trans rfl

theorem sub (rd rs1 rs2 : RegIdx) : Statement (.sub rd rs1 rs2) :=
  (mask_encodeR ..).trans rfl

theorem sll (rd rs1 rs2 : RegIdx) : Statement (.sll rd rs1 rs2) :=
  (mask_encodeR ..).trans rfl

theorem slt (rd rs1 rs2 : RegIdx) : Statement (.slt rd rs1 rs2) :=
  (mask_encodeR ..).trans rfl

theorem sltu (rd rs1 rs2 : RegIdx) : Statement (.sltu rd rs1 rs2) :=
  (mask_encodeR ..).trans rfl

theorem xor (rd rs1 rs2 : RegIdx) : Statement (.xor rd rs1 rs2) :=
  (mask_encodeR ..).trans rfl

theorem srl (rd rs1 rs2 : RegIdx) : Statement (.srl rd rs1 rs2) :=
  (mask_encodeR ..).trans rfl

theorem sra (rd rs1 rs2 : RegIdx) : Statement (.sra rd rs1 rs2) :=
  (mask_encodeR ..).trans rfl

theorem or (rd rs1 rs2 : RegIdx) : Statement (.or rd rs1 rs2) :=
  (mask_encodeR ..).trans rfl

theorem and (rd rs1 rs2 : RegIdx) : Statement (.and rd rs1 rs2) :=
  (mask_encodeR ..).trans rfl

end Sys2Proof.Laws.RowOfEncoding
end

