-- ==== Sys2Proof/Laws/Step.lean ====
section
/-! SUPPORT. What a step can do, said once (40_execution_engine.md R90): one equation per outcome of the fetch, one inversion
lemma for a next state, and the reading of a placed word. -/

namespace Sys2Proof.Machine

/-! ### The fetch (R93) -/

@[simp] theorem fetchWord_forceZero (s : State) : fetchWord (forceZero s) = fetchWord s := by
  unfold fetchWord memRead
  rw [loadLE_forceZero]
  rfl

theorem fetchWord_of_inWindow {s : State} (h : InWindow s.config s.pc 4) :
    fetchWord s = some (loadLE s s.pc.toNat 4) := memRead_of_inWindow h

theorem fetchWord_of_not_inWindow {s : State} (h : ¬InWindow s.config s.pc 4) : fetchWord s = none :=
  memRead_of_not_inWindow h

@[simp] theorem fetchInstr_forceZero (s : State) : fetchInstr (forceZero s) = fetchInstr s := by
  unfold fetchInstr
  rw [fetchWord_forceZero]
  rfl

/-- A fetched and decoded instruction (R93, R94). -/
theorem fetchInstr_eq_ok_iff (s : State) (i : Instr) :
    fetchInstr s = .ok i ↔ ∃ w, fetchWord s = some w ∧ decode w = .ok i := by
  unfold fetchInstr
  cases fetchWord s with
  | none => simp
  | some w =>
    cases h : decode w with
    | ok j => simp [h]
    | error e => cases e <;> simp [h]

/-- The errors of fetch and decode, in step order (R208). -/
theorem fetchInstr_eq_error_iff (s : State) (e : Fault) :
    fetchInstr s = .error e ↔
      (fetchWord s = none ∧ e = .fetchOutOfBounds s.pc 4) ∨
      (∃ w, fetchWord s = some w ∧ decode w = .error .unsupportedOpcode ∧ e = .unsupportedOpcode s.pc w) ∨
      (∃ w, fetchWord s = some w ∧ decode w = .error .illegalEncoding ∧ e = .illegalEncoding s.pc w) := by
  unfold fetchInstr
  cases fetchWord s with
  | none => simp [eq_comm]
  | some w =>
    cases h : decode w with
    | ok j => simp [h]
    | error d =>
      cases d with
      | truncated => exact absurd h (decode_ne_truncated w)
      | unsupportedOpcode => simp [h, eq_comm]
      | illegalEncoding => simp [h, eq_comm]

/-! ### The step -/

theorem step_of_invalid {s : State} (h : ¬ConfigValid s.config) : step s = .refused .invalidConfiguration := by
  simp only [step, if_neg h]

theorem step_of_fetched {s : State} {i : Instr} (hc : ConfigValid s.config) (h : fetchInstr s = .ok i) :
    step s = retire (exec i (forceZero s)) := by
  simp only [step, if_pos hc, fetchInstr_forceZero, h]

theorem step_of_error {s : State} {e : Fault} (hc : ConfigValid s.config) (h : fetchInstr s = .error e) :
    step s = .fault e := by
  simp only [step, if_pos hc, fetchInstr_forceZero, h]
  rfl

/-- Everything a step that answers a next state has done. -/
theorem step_next {s t : State} (h : step s = .next t) :
    ConfigValid s.config ∧ ∃ i u, fetchInstr s = .ok i ∧ exec i (forceZero s) = .next u ∧ t = forceZero u := by
  by_cases hc : ConfigValid s.config
  · refine ⟨hc, ?_⟩
    cases hf : fetchInstr s with
    | error e => rw [step_of_error hc hf] at h; cases h
    | ok i =>
      rw [step_of_fetched hc hf] at h
      cases he : exec i (forceZero s) with
      | next u => rw [he] at h; exact ⟨i, u, rfl, he, by cases h; rfl⟩
      | fault e => rw [he] at h; cases h
      | refused r => rw [he] at h; cases h
  · rw [step_of_invalid hc] at h; cases h

/-- Everything a step that answers an error has done: fetch or decode raised it, or the instruction did (R208). -/
theorem step_fault {s : State} {e : Fault} (h : step s = .fault e) :
    ConfigValid s.config ∧
      (fetchInstr s = .error e ∨ ∃ i, fetchInstr s = .ok i ∧ exec i (forceZero s) = .fault e) := by
  by_cases hc : ConfigValid s.config
  · refine ⟨hc, ?_⟩
    cases hf : fetchInstr s with
    | error d => rw [step_of_error hc hf] at h; cases h; exact .inl rfl
    | ok i =>
      rw [step_of_fetched hc hf] at h
      cases he : exec i (forceZero s) with
      | next u => rw [he] at h; cases h
      | fault e => rw [he] at h; cases h; exact .inr ⟨i, rfl, he⟩
      | refused r => rw [he] at h; cases h
  · rw [step_of_invalid hc] at h; cases h

/-! ### Runs -/

/-- A run past a step that answers a next state goes on from it. -/
theorem run_of_next {s t : State} (n : Nat) (h : step s = .next t) :
    Host.Core.run Sys2Proof.core (n + 1) s = Host.Core.run Sys2Proof.core n t := by
  have h' : Sys2Proof.core.step s = .next t := h
  simp only [Host.Core.run, h']

/-- A run ends at a step that answers an error, with that error (R210). -/
theorem run_of_fault {s : State} {e : Fault} (n : Nat) (h : step s = .fault e) :
    Host.Core.run Sys2Proof.core (n + 1) s = .fault e := by
  have h' : Sys2Proof.core.step s = .fault e := h
  simp only [Host.Core.run, h']

/-! ### A word placed at the pc -/

/-- `withFetchWord` changes the memory only. -/
theorem withFetchWord_fields (s : State) (nbits w : Nat) :
    (s.withFetchWord nbits w).pc = s.pc ∧ (s.withFetchWord nbits w).regs = s.regs ∧
      (s.withFetchWord nbits w).config = s.config := ⟨rfl, rfl, rfl⟩

/-- The loaded word after its bytes are placed (R48). -/
theorem loadLE_setBytes_bytesOfWord (s : State) (a : Nat) (w : Word) :
    loadLE { s with mem := Memory.setBytes s.mem a (bytesOfWord w) } a 4 = w := by
  apply BitVec.eq_of_getLsbD_eq
  intro i hi
  rw [getLsbD_loadLE _ _ _ _ (by decide)]
  have h : a ≤ a + i / 8 ∧ a + i / 8 < a + (bytesOfWord w).length := by simp [bytesOfWord]; omega
  simp only [byteAt, Memory.get_setBytes, dif_pos h, Option.getD_some]
  have hk : i / 8 = 0 ∨ i / 8 = 1 ∨ i / 8 = 2 ∨ i / 8 = 3 := by omega
  have hd : 8 * (i / 8) + i % 8 = i := by omega
  have hm : i % 8 < 8 := by omega
  have hlt : i < 8 * 4 := by omega
  rcases hk with hk | hk | hk | hk <;>
    · rw [hk] at hd
      simp only [bytesOfWord, Nat.add_sub_cancel_left, hk, List.getElem_cons_zero, List.getElem_cons_succ,
        BitVec.getLsbD_extractLsb', hm, hlt, decide_true, Bool.true_and]
      exact congrArg _ (by omega)

/-- `withFetchWord` places exactly the word the next step fetches. -/
theorem fetchWord_withFetchWord (s : State) (nbits w : Nat) (h : InWindow s.config s.pc 4) :
    fetchWord (s.withFetchWord nbits w) = some (BitVec.ofNat 32 (w % 2 ^ nbits)) := by
  rw [fetchWord_of_inWindow (s := s.withFetchWord nbits w) h]
  exact congrArg some (loadLE_setBytes_bytesOfWord s s.pc.toNat _)

/-- `withFetchWord` keeps the canonical form. -/
theorem withFetchWord_wf {s : State} (h : Memory.wf s.mem) (nbits w : Nat) :
    Memory.wf (s.withFetchWord nbits w).mem := Memory.setBytes_wf h _ _

/-- The loader keeps the canonical form (R54). -/
theorem bulkInit_wf {c : MemConfig} {image : List Byte} {m m' : Memory} (h : Memory.wf m)
    (hb : bulkInit c image m = some m') : Memory.wf m' ∧ image.length ≤ c.capacity := by
  unfold bulkInit at hb
  split at hb
  · cases hb; exact ⟨Memory.setBytes_wf h _ _, ‹_›⟩
  · cases hb

end Sys2Proof.Machine
end

