-- ==== Sys2Proof/Tests/Slice0.lean ====
section
/-! SUPPORT. The model's own tests: ill-formed terms, the decoding of words written out from the spec's encodings, one or two
steps per instruction on the spec's own examples (files 41 to 45 and 95_test_vectors.md), the errors and their order, and a
witness for the hypotheses of every statement. Every expected value is the spec's. -/

namespace Sys2Proof.Tests

open Sys2Proof Sys2Proof.Machine Sys2Proof.Claims

/-! ### Helpers -/

/-- A state with this configuration, pc, registers and written bytes. -/
def state (c : MemConfig) (pc : Word) (regs : List (RegIdx × Word)) (bytes : List (Nat × List Byte)) : State :=
  bytes.foldl (fun s p => { s with mem := Memory.setBytes s.mem p.1 p.2 })
    (regs.foldl (fun s p => writeReg s p.1 p.2) { State.reset with pc := pc, config := c })

/-- The setup of 95_test_vectors.md: the reference configuration, `ipc = 0x100`, the word placed there. -/
def at100 (w : Nat) (regs : List (RegIdx × Word)) (bytes : List (Nat × List Byte)) : State :=
  (state MemConfig.reference 0x100#32 regs bytes).withFetchWord 32 w

/-- The setup of section 2.10: the window `[0x100, 0x1FF]`. -/
def narrow : MemConfig := { capacity := 4096, lower := 0x100, upper := 0x1FF }

/-- The outcome is a next state with the property. -/
def nextWith (o : Result) (f : State → Bool) : Bool :=
  match o with
  | .next t => f t
  | .fault _ | .refused _ => false

/-- The outcome is this error. -/
def faultIs (o : Result) (e : Fault) : Bool :=
  match o with
  | .fault d => d == e
  | .next _ | .refused _ => false

/-- The byte written at an address. -/
def written (s : State) (a : Nat) : Option Byte := Memory.get s.mem a

/-- What a decoding answers. -/
def decodesTo (w : Word) (i : Instr) : Bool :=
  match decode w with
  | .ok j => j == i
  | .error _ => false

/-- The error a decoding answers. -/
def decodeFails (w : Word) (e : DecodeError) : Bool :=
  match decode w with
  | .ok _ => false
  | .error d => d == e

theorem exists_next {o : Result} {f : State → Bool} (h : nextWith o f = true) : ∃ t, o = .next t ∧ f t = true := by
  cases o with
  | next t => exact ⟨t, rfl, h⟩
  | fault e => cases h
  | refused r => cases h

theorem eq_fault {o : Result} {e : Fault} (h : faultIs o e = true) : o = .fault e := by
  cases o with
  | next t => cases h
  | fault d => rw [show d = e from by simpa [faultIs] using h]
  | refused r => cases h

theorem eq_ok {w : Word} {i : Instr} (h : decodesTo w i = true) : decode w = .ok i := by
  unfold decodesTo at h
  cases hd : decode w with
  | ok j => rw [hd] at h; rw [show j = i from by simpa using h]
  | error d => rw [hd] at h; cases h

/-! ### Ill-formed terms, refused by WellFormed (R72, R74: bit 0 of a branch or JAL immediate is 0) -/

theorem test_illformed_jal :
    Instr.wellFormed (.jal 1 0x000001#21) = false := by decide

theorem test_illformed_beq :
    Instr.wellFormed (.beq 5 6 0x0001#13) = false := by decide

theorem test_illformed_bne :
    Instr.wellFormed (.bne 5 6 0x0001#13) = false := by decide

theorem test_illformed_blt :
    Instr.wellFormed (.blt 5 6 0x0001#13) = false := by decide

theorem test_illformed_bge :
    Instr.wellFormed (.bge 5 6 0x0001#13) = false := by decide

theorem test_illformed_bltu :
    Instr.wellFormed (.bltu 5 6 0x0001#13) = false := by decide

theorem test_illformed_bgeu :
    Instr.wellFormed (.bgeu 5 6 0x0001#13) = false := by decide

theorem test_wellformed_branch :
    Instr.wellFormed (.beq 5 6 0x0AAA#13) = true := by decide

/-! ### Decoding: one word per constructor, from the encodings of files 41 to 45 and W3 -/

theorem test_decode_lui :
    decodesTo 0xABCDE1B7#32 (.lui 3 0xABCDE#20) = true := by decide

theorem test_decode_auipc :
    decodesTo 0x00001097#32 (.auipc 1 1#20) = true := by decide

theorem test_decode_jal :
    decodesTo 0xAABAA0EF#32 (.jal 1 0x1AAAAA#21) = true := by decide

theorem test_decode_jalr :
    decodesTo 0x003280E7#32 (.jalr 1 5 3#12) = true := by decide

theorem test_decode_beq :
    decodesTo 0x2A6285E3#32 (.beq 5 6 0x0AAA#13) = true := by decide

theorem test_decode_bne :
    decodesTo 0xFE6298E3#32 (.bne 5 6 0x1FF0#13) = true := by decide

theorem test_decode_blt :
    decodesTo 0xFE62C8E3#32 (.blt 5 6 0x1FF0#13) = true := by decide

theorem test_decode_bge :
    decodesTo 0xFE62D8E3#32 (.bge 5 6 0x1FF0#13) = true := by decide

theorem test_decode_bltu :
    decodesTo 0xFE62E8E3#32 (.bltu 5 6 0x1FF0#13) = true := by decide

theorem test_decode_bgeu :
    decodesTo 0xFE62F8E3#32 (.bgeu 5 6 0x1FF0#13) = true := by decide

theorem test_decode_lb :
    decodesTo 0x00128083#32 (.lb 1 5 1#12) = true := by decide

theorem test_decode_lh :
    decodesTo 0x00129083#32 (.lh 1 5 1#12) = true := by decide

theorem test_decode_lw :
    decodesTo 0x0012A083#32 (.lw 1 5 1#12) = true := by decide

theorem test_decode_lbu :
    decodesTo 0x0012C083#32 (.lbu 1 5 1#12) = true := by decide

theorem test_decode_lhu :
    decodesTo 0x0012D083#32 (.lhu 1 5 1#12) = true := by decide

theorem test_decode_sb :
    decodesTo 0xFE628E23#32 (.sb 5 6 0xFFC#12) = true := by decide

theorem test_decode_sh :
    decodesTo 0xFE629E23#32 (.sh 5 6 0xFFC#12) = true := by decide

theorem test_decode_sw :
    decodesTo 0x7E62AEA3#32 (.sw 5 6 0x7FD#12) = true := by decide

theorem test_decode_addi :
    decodesTo 0xABC28093#32 (.addi 1 5 0xABC#12) = true := by decide

theorem test_decode_slti :
    decodesTo 0xFFF2A093#32 (.slti 1 5 0xFFF#12) = true := by decide

theorem test_decode_sltiu :
    decodesTo 0xFFF2B093#32 (.sltiu 1 5 0xFFF#12) = true := by decide

theorem test_decode_xori :
    decodesTo 0xFFF2C093#32 (.xori 1 5 0xFFF#12) = true := by decide

theorem test_decode_ori :
    decodesTo 0x0F02E093#32 (.ori 1 5 0x0F0#12) = true := by decide

theorem test_decode_andi :
    decodesTo 0xFF02F093#32 (.andi 1 5 0xFF0#12) = true := by decide

theorem test_decode_slli :
    decodesTo 0x01F29093#32 (.slli 1 5 31#5) = true := by decide

theorem test_decode_srli :
    decodesTo 0x01F2D093#32 (.srli 1 5 31#5) = true := by decide

theorem test_decode_srai :
    decodesTo 0x41F2D093#32 (.srai 1 5 31#5) = true := by decide

theorem test_decode_add :
    decodesTo 0x00A280B3#32 (.add 1 5 10) = true := by decide

theorem test_decode_sub :
    decodesTo 0x40A28033#32 (.sub 0 5 10) = true := by decide

theorem test_decode_sll :
    decodesTo 0x00A290B3#32 (.sll 1 5 10) = true := by decide

theorem test_decode_slt :
    decodesTo 0x00A2A0B3#32 (.slt 1 5 10) = true := by decide

theorem test_decode_sltu :
    decodesTo 0x00A2B0B3#32 (.sltu 1 5 10) = true := by decide

theorem test_decode_xor :
    decodesTo 0x00A2C0B3#32 (.xor 1 5 10) = true := by decide

theorem test_decode_srl :
    decodesTo 0x00A2D0B3#32 (.srl 1 5 10) = true := by decide

theorem test_decode_sra :
    decodesTo 0x40A2D0B3#32 (.sra 1 5 10) = true := by decide

theorem test_decode_or :
    decodesTo 0x00A2E0B3#32 (.or 1 5 10) = true := by decide

theorem test_decode_and :
    decodesTo 0x00A2F0B3#32 (.and 1 5 10) = true := by decide

/-! ### Decoding: bits the encodings leave open (R82, R83, D15), through the table interface -/

theorem test_decode_lw_funct3_110 :
    decodesTo 0x0012E083#32 (.lw 1 5 1#12) = true := by decide

theorem test_decode_sb_funct3_100 :
    decodesTo 0xFE62CE23#32 (.sb 5 6 0xFFC#12) = true := by decide

theorem test_decode_jalr_funct3_001 :
    decodesTo 0x003290E7#32 (.jalr 1 5 3#12) = true := by decide

theorem test_decodeTableWord_beq :
    decodeTableWord 32 0xFE6288E3 = some (.beq 5 6 0x1FF0#13) := by decide

theorem test_decodeTableWord_unsupported :
    decodeTableWord 32 0x00000073 = none := by decide

theorem test_decodeBytes_truncated :
    (match decodeBytes [0x13#8, 0x00#8, 0x00#8] with | .error e => e == .truncated | .ok _ => false) = true := by decide

/-! ### Refused words: illegal sub-codes (R79) and unsupported opcodes (section 2.9) -/

theorem test_illegal_branch_010 :
    decodeFails 0x00002463#32 .illegalEncoding = true := by decide

theorem test_illegal_branch_011 :
    decodeFails 0x00003463#32 .illegalEncoding = true := by decide

theorem test_illegal_load_011 :
    decodeFails 0x0012B083#32 .illegalEncoding = true := by decide

theorem test_illegal_load_111 :
    decodeFails 0x0002F083#32 .illegalEncoding = true := by decide

theorem test_illegal_store_011 :
    decodeFails 0xFE62BE23#32 .illegalEncoding = true := by decide

theorem test_illegal_store_111 :
    decodeFails 0x0062F023#32 .illegalEncoding = true := by decide

theorem test_illegal_slli :
    decodeFails 0x40329093#32 .illegalEncoding = true := by decide

theorem test_illegal_srli :
    decodeFails 0x0202D093#32 .illegalEncoding = true := by decide

theorem test_illegal_srai :
    decodeFails 0x6012D093#32 .illegalEncoding = true := by decide

theorem test_illegal_mul :
    decodeFails 0x02A280B3#32 .illegalEncoding = true := by decide

theorem test_illegal_op_001 :
    decodeFails 0x40A290B3#32 .illegalEncoding = true := by decide

theorem test_illegal_op_000 :
    decodeFails 0x80A280B3#32 .illegalEncoding = true := by decide

theorem test_unsupported_fence :
    decodeFails 0x0FF0000F#32 .unsupportedOpcode = true := by decide

theorem test_unsupported_ecall :
    decodeFails 0x00000073#32 .unsupportedOpcode = true := by decide

theorem test_unsupported_mret :
    decodeFails 0x30200073#32 .unsupportedOpcode = true := by decide

theorem test_unsupported_zero :
    decodeFails 0x00000000#32 .unsupportedOpcode = true := by decide

theorem test_unsupported_ones :
    decodeFails 0xFFFFFFFF#32 .unsupportedOpcode = true := by decide

theorem test_unsupported_compressed :
    decodeFails 0x00010001#32 .unsupportedOpcode = true := by decide

theorem test_unsupported_amo :
    decodeFails 0x0062A2AF#32 .unsupportedOpcode = true := by decide

/-! ### Steps: the register ALU (section 2.1) -/

theorem test_add_wraps :
    nextWith (step (at100 0x00A280B3 [(5, 0xFFFFFFFF#32), (10, 1#32)] []))
      (fun t => readReg t 1 == 0#32 && t.pc == 0x104#32) = true := by decide

theorem test_add_same :
    nextWith (step (at100 0x005282B3 [(5, 0x80000000#32)] []))
      (fun t => readReg t 5 == 0#32 && t.pc == 0x104#32) = true := by decide

theorem test_sub_borrows :
    nextWith (step (at100 0x40A280B3 [(10, 1#32)] []))
      (fun t => readReg t 1 == 0xFFFFFFFF#32 && t.pc == 0x104#32) = true := by decide

theorem test_sll_amount_32 :
    nextWith (step (at100 0x00A290B3 [(5, 1#32), (10, 0x20#32)] []))
      (fun t => readReg t 1 == 1#32 && t.pc == 0x104#32) = true := by decide

theorem test_sll_amount_high_bits :
    nextWith (step (at100 0x00A290B3 [(5, 0x12345678#32), (10, 0xFFFFFFE4#32)] []))
      (fun t => readReg t 1 == 0x23456780#32 && t.pc == 0x104#32) = true := by decide

theorem test_slt_true :
    nextWith (step (at100 0x00A2A0B3 [(5, 0xFFFFFFFF#32), (10, 1#32)] []))
      (fun t => readReg t 1 == 1#32 && t.pc == 0x104#32) = true := by decide

theorem test_slt_false :
    nextWith (step (at100 0x00A2A0B3 [(5, 1#32), (10, 0xFFFFFFFF#32)] []))
      (fun t => readReg t 1 == 0#32 && t.pc == 0x104#32) = true := by decide

theorem test_sltu_false :
    nextWith (step (at100 0x00A2B0B3 [(5, 0xFFFFFFFF#32), (10, 1#32)] []))
      (fun t => readReg t 1 == 0#32 && t.pc == 0x104#32) = true := by decide

theorem test_sltu_true :
    nextWith (step (at100 0x00A030B3 [(10, 5#32)] []))
      (fun t => readReg t 1 == 1#32 && t.pc == 0x104#32) = true := by decide

theorem test_xor :
    nextWith (step (at100 0x00A2C0B3 [(5, 0xF0F0F0F0#32), (10, 0xFF00FF00#32)] []))
      (fun t => readReg t 1 == 0x0FF00FF0#32 && t.pc == 0x104#32) = true := by decide

theorem test_srl_amount_33 :
    nextWith (step (at100 0x00A2D0B3 [(5, 0x80000000#32), (10, 0x21#32)] []))
      (fun t => readReg t 1 == 0x40000000#32 && t.pc == 0x104#32) = true := by decide

theorem test_sra_negative :
    nextWith (step (at100 0x40A2D0B3 [(5, 0x80000000#32), (10, 0x1F#32)] []))
      (fun t => readReg t 1 == 0xFFFFFFFF#32 && t.pc == 0x104#32) = true := by decide

theorem test_sra_positive :
    nextWith (step (at100 0x40A2D0B3 [(5, 0x7FFFFFFF#32), (10, 4#32)] []))
      (fun t => readReg t 1 == 0x07FFFFFF#32 && t.pc == 0x104#32) = true := by decide

theorem test_or :
    nextWith (step (at100 0x00A2E0B3 [(5, 0xF0F0F0F0#32), (10, 0x0F0F0F0F#32)] []))
      (fun t => readReg t 1 == 0xFFFFFFFF#32 && t.pc == 0x104#32) = true := by decide

theorem test_and :
    nextWith (step (at100 0x00A2F0B3 [(5, 0xF0F0F0F0#32), (10, 0xFF00FF00#32)] []))
      (fun t => readReg t 1 == 0xF000F000#32 && t.pc == 0x104#32) = true := by decide

/-! ### Steps: the immediate ALU (section 2.2) -/

theorem test_addi_negative :
    nextWith (step (at100 0xFFF28093 [] []))
      (fun t => readReg t 1 == 0xFFFFFFFF#32 && t.pc == 0x104#32) = true := by decide

theorem test_addi_bit30 :
    nextWith (step (at100 0xC0028093 [(5, 0x7D0#32)] []))
      (fun t => readReg t 1 == 0x3D0#32 && t.pc == 0x104#32) = true := by decide

theorem test_slti :
    nextWith (step (at100 0xFFF2A093 [(5, 0xFFFFFFFE#32)] []))
      (fun t => readReg t 1 == 1#32 && t.pc == 0x104#32) = true := by decide

theorem test_sltiu_zero_extends :
    nextWith (step (at100 0xFFF2B093 [(5, 0xFFFFFFFF#32)] []))
      (fun t => readReg t 1 == 0#32 && t.pc == 0x104#32) = true := by decide

theorem test_sltiu_below :
    nextWith (step (at100 0xFFF2B093 [(5, 0xFFE#32)] []))
      (fun t => readReg t 1 == 1#32 && t.pc == 0x104#32) = true := by decide

theorem test_xori_not :
    nextWith (step (at100 0xFFF2C093 [(5, 0x12345678#32)] []))
      (fun t => readReg t 1 == 0xEDCBA987#32 && t.pc == 0x104#32) = true := by decide

theorem test_ori_negative :
    nextWith (step (at100 0xFF02E093 [(5, 3#32)] []))
      (fun t => readReg t 1 == 0xFFFFFFF3#32 && t.pc == 0x104#32) = true := by decide

theorem test_andi_negative :
    nextWith (step (at100 0xF002F093 [(5, 0x12345678#32)] []))
      (fun t => readReg t 1 == 0x12345600#32 && t.pc == 0x104#32) = true := by decide

theorem test_andi_positive :
    nextWith (step (at100 0x7FF2F093 [(5, 0xFFFFFFFF#32)] []))
      (fun t => readReg t 1 == 0x7FF#32 && t.pc == 0x104#32) = true := by decide

theorem test_slli :
    nextWith (step (at100 0x01F29093 [(5, 3#32)] []))
      (fun t => readReg t 1 == 0x80000000#32 && t.pc == 0x104#32) = true := by decide

theorem test_srli :
    nextWith (step (at100 0x01F2D093 [(5, 0x80000000#32)] []))
      (fun t => readReg t 1 == 1#32 && t.pc == 0x104#32) = true := by decide

theorem test_srai :
    nextWith (step (at100 0x41F2D093 [(5, 0x80000000#32)] []))
      (fun t => readReg t 1 == 0xFFFFFFFF#32 && t.pc == 0x104#32) = true := by decide

/-! ### Steps: loads (section 2.3) -/

/-- The bytes of section 2.3. -/
def loadBytes : List (Nat × List Byte) :=
  [(0x200, [0x80#8, 0xFF#8, 0x34#8, 0x12#8, 0x7F#8]), (0xFFC, [0x11#8, 0x22#8, 0x33#8, 0x44#8])]

theorem test_lb :
    nextWith (step (at100 0x00028083 [(5, 0x200#32)] loadBytes))
      (fun t => readReg t 1 == 0xFFFFFF80#32 && t.pc == 0x104#32) = true := by decide

theorem test_lb_positive :
    nextWith (step (at100 0x00428083 [(5, 0x200#32)] loadBytes))
      (fun t => readReg t 1 == 0x7F#32 && t.pc == 0x104#32) = true := by decide

theorem test_lh :
    nextWith (step (at100 0x00029083 [(5, 0x200#32)] loadBytes))
      (fun t => readReg t 1 == 0xFFFFFF80#32 && t.pc == 0x104#32) = true := by decide

theorem test_lh_misaligned :
    nextWith (step (at100 0x00129083 [(5, 0x200#32)] loadBytes))
      (fun t => readReg t 1 == 0x34FF#32 && t.pc == 0x104#32) = true := by decide

theorem test_lw_same_register :
    nextWith (step (at100 0x0002A283 [(5, 0x200#32)] loadBytes))
      (fun t => readReg t 5 == 0x1234FF80#32 && t.pc == 0x104#32) = true := by decide

theorem test_lw_top :
    nextWith (step (at100 0x0002A083 [(5, 0xFFC#32)] loadBytes))
      (fun t => readReg t 1 == 0x44332211#32 && t.pc == 0x104#32) = true := by decide

theorem test_lbu :
    nextWith (step (at100 0x0002C083 [(5, 0x200#32)] loadBytes))
      (fun t => readReg t 1 == 0x80#32 && t.pc == 0x104#32) = true := by decide

theorem test_lbu_top :
    nextWith (step (at100 0x0002C083 [(5, 0xFFF#32)] loadBytes))
      (fun t => readReg t 1 == 0x44#32 && t.pc == 0x104#32) = true := by decide

theorem test_lhu :
    nextWith (step (at100 0x0002D083 [(5, 0x200#32)] loadBytes))
      (fun t => readReg t 1 == 0xFF80#32 && t.pc == 0x104#32) = true := by decide

theorem test_lw_past_top :
    faultIs (step (at100 0x0002A083 [(5, 0xFFD#32)] [])) (.memoryOutOfBounds 0x100#32 0xFFD#32 4) = true := by decide

theorem test_lb_past_top :
    faultIs (step (at100 0x00028083 [(5, 0x1000#32)] [])) (.memoryOutOfBounds 0x100#32 0x1000#32 1) = true := by decide

/-! ### Steps: stores (section 2.4) -/

/-- The bytes of section 2.4. -/
def storeBytes : List (Nat × List Byte) :=
  [(0x2FF, [0xAA#8, 0xAA#8, 0xAA#8, 0xAA#8, 0xAA#8, 0xAA#8, 0xAA#8])]

theorem test_sb :
    nextWith (step (at100 0x00628023 [(5, 0x300#32), (6, 0x12345678#32)] storeBytes))
      (fun t => written t 0x2FF == some 0xAA#8 &&
        written t 0x300 == some 0x78#8 &&
        written t 0x301 == some 0xAA#8) = true := by decide

theorem test_sh :
    nextWith (step (at100 0x00629023 [(5, 0x300#32), (6, 0x12345678#32)] storeBytes))
      (fun t => written t 0x2FF == some 0xAA#8 &&
        written t 0x300 == some 0x78#8 &&
        written t 0x301 == some 0x56#8 &&
        written t 0x302 == some 0xAA#8) = true := by decide

theorem test_sw_negative_offset :
    nextWith (step (at100 0xFE62AE23 [(5, 0x304#32), (6, 0xCAFEF00D#32)] storeBytes))
      (fun t => written t 0x2FF == some 0xAA#8 &&
        written t 0x300 == some 0x0D#8 &&
        written t 0x301 == some 0xF0#8 &&
        written t 0x302 == some 0xFE#8 &&
        written t 0x303 == some 0xCA#8 &&
        written t 0x304 == some 0xAA#8) = true := by decide

theorem test_sw_misaligned :
    nextWith (step (at100 0x0062A0A3 [(5, 0x300#32), (6, 0x12345678#32)] storeBytes))
      (fun t => written t 0x300 == some 0xAA#8 &&
        written t 0x301 == some 0x78#8 &&
        written t 0x302 == some 0x56#8 &&
        written t 0x303 == some 0x34#8 &&
        written t 0x304 == some 0x12#8 &&
        written t 0x305 == some 0xAA#8) = true := by decide

theorem test_sh_past_top :
    faultIs (step (at100 0x00629023 [(5, 0xFFF#32), (6, 1#32)] [])) (.memoryOutOfBounds 0x100#32 0xFFF#32 2) = true := by decide

theorem test_sb_top_of_space :
    faultIs (step (at100 0x00628023 [(5, 0xFFFFFFFF#32), (6, 1#32)] [])) (.memoryOutOfBounds 0x100#32 0xFFFFFFFF#32 1) = true := by decide

/-! ### Steps: upper immediates and control transfer (sections 2.5 to 2.8) -/

theorem test_lui :
    nextWith (step (at100 0xFFFFF0B7 [] []))
      (fun t => readReg t 1 == 0xFFFFF000#32 && t.pc == 0x104#32) = true := by decide

theorem test_auipc :
    nextWith (step (at100 0xFFFFF097 [] []))
      (fun t => readReg t 1 == 0xFFFFF100#32 && t.pc == 0x104#32) = true := by decide

theorem test_beq_taken :
    nextWith (step (at100 0xFE6288E3 [(5, 5#32), (6, 5#32)] [])) (fun t => t.pc == 0xF0#32) = true := by decide

theorem test_beq_not_taken :
    nextWith (step (at100 0xFE6288E3 [(5, 5#32), (6, 6#32)] [])) (fun t => t.pc == 0x104#32) = true := by decide

theorem test_bne_taken :
    nextWith (step (at100 0xFE6298E3 [(5, 5#32), (6, 6#32)] [])) (fun t => t.pc == 0xF0#32) = true := by decide

theorem test_bne_not_taken :
    nextWith (step (at100 0xFE6298E3 [(5, 5#32), (6, 5#32)] [])) (fun t => t.pc == 0x104#32) = true := by decide

theorem test_blt_taken :
    nextWith (step (at100 0xFE62C8E3 [(5, 0xFFFFFFFF#32), (6, 1#32)] [])) (fun t => t.pc == 0xF0#32) = true := by decide

theorem test_blt_equal :
    nextWith (step (at100 0xFE62C8E3 [(5, 5#32), (6, 5#32)] [])) (fun t => t.pc == 0x104#32) = true := by decide

theorem test_bge_equal :
    nextWith (step (at100 0xFE62D8E3 [(5, 5#32), (6, 5#32)] [])) (fun t => t.pc == 0xF0#32) = true := by decide

theorem test_bge_not_taken :
    nextWith (step (at100 0xFE62D8E3 [(5, 0xFFFFFFFF#32), (6, 1#32)] [])) (fun t => t.pc == 0x104#32) = true := by decide

theorem test_bltu_taken :
    nextWith (step (at100 0xFE62E8E3 [(5, 1#32), (6, 0xFFFFFFFF#32)] [])) (fun t => t.pc == 0xF0#32) = true := by decide

theorem test_bltu_not_taken :
    nextWith (step (at100 0xFE62E8E3 [(5, 0xFFFFFFFF#32), (6, 1#32)] [])) (fun t => t.pc == 0x104#32) = true := by decide

theorem test_bgeu_taken :
    nextWith (step (at100 0xFE62F8E3 [(5, 0xFFFFFFFF#32), (6, 1#32)] [])) (fun t => t.pc == 0xF0#32) = true := by decide

theorem test_bgeu_not_taken :
    nextWith (step (at100 0xFE62F8E3 [(5, 1#32), (6, 0xFFFFFFFF#32)] [])) (fun t => t.pc == 0x104#32) = true := by decide

theorem test_jal_back :
    nextWith (step (at100 0xFF9FF0EF [] [])) (fun t => readReg t 1 == 0x104#32 && t.pc == 0xF8#32) = true := by decide

theorem test_jal_min :
    nextWith (step (at100 0x800000EF [] []))
      (fun t => readReg t 1 == 0x104#32 && t.pc == 0xFFF00100#32) = true := by decide

theorem test_jalr_same_register :
    nextWith (step (at100 0x004282E7 [(5, 0x200#32)] []))
      (fun t => readReg t 5 == 0x104#32 && t.pc == 0x204#32) = true := by decide

theorem test_jalr_clears_bit0 :
    nextWith (step (at100 0x000280E7 [(5, 0xFFFFFFFF#32)] []))
      (fun t => readReg t 1 == 0x104#32 && t.pc == 0xFFFFFFFE#32) = true := by decide

/-! ### Register 0 (W1), the fetch (section 2.11) and the order of errors (section 2.12) -/

theorem test_x0_write_discarded :
    nextWith (step (at100 0x00500013 [] []))
      (fun t => readReg t 0 == 0#32 && t.regs[0] == 0#32 && t.pc == 0x104#32) = true := by decide

theorem test_x0_input_forced :
    nextWith (step { at100 0x000000B3 [] [] with regs := (at100 0x000000B3 [] []).regs.set 0 7#32 })
      (fun t => readReg t 1 == 0#32 && t.regs[0] == 0#32) = true := by decide

theorem test_fetch_top :
    nextWith (step ((state MemConfig.reference 0xFFC#32 [] []).withFetchWord 32 0x00000013)) (fun t => t.pc == 0x1000#32) = true := by decide

theorem test_fetch_past_top :
    faultIs (step (state MemConfig.reference 0xFFD#32 [] [])) (.fetchOutOfBounds 0xFFD#32 4) = true := by decide

theorem test_fetch_wraps_not :
    faultIs (step (state MemConfig.reference 0xFFFFFFFE#32 [] [])) (.fetchOutOfBounds 0xFFFFFFFE#32 4) = true := by decide

theorem test_fetch_below :
    faultIs (step (state narrow 0xFC#32 [] [])) (.fetchOutOfBounds 0xFC#32 4) = true := by decide

theorem test_fetch_misaligned :
    faultIs (step (state MemConfig.reference 0x102#32 [] [(0x100, [0x13#8, 0#8, 0#8, 0#8, 0x13#8, 0#8, 0#8, 0#8])]))
      (.unsupportedOpcode 0x102#32 0x00130000#32) = true := by decide

theorem test_illegal_before_memory :
    faultIs (step (at100 0x0002F083 [(5, 0x10000#32)] [])) (.illegalEncoding 0x100#32 0x0002F083#32) = true := by decide

theorem test_unsupported :
    faultIs (step (at100 0x00000073 [] [])) (.unsupportedOpcode 0x100#32 0x00000073#32) = true := by decide

theorem test_narrow_window :
    faultIs (step ((state narrow 0x100#32 [(5, 0xFF#32)] []).withFetchWord 32 0x00028083))
      (.memoryOutOfBounds 0x100#32 0xFF#32 1) = true := by decide

theorem test_invalid_configuration :
    step (state { capacity := 4096, lower := 0, upper := 4096 } 0#32 [] []) = .refused .invalidConfiguration := rfl

/-- 95_test_vectors.md W6: two instructions from the construction (R230). -/
theorem test_scenario_W6 :
    nextWith (match construct MemConfig.reference [0x93#8, 0x00#8, 0x50#8, 0x00#8, 0x13#8, 0x81#8, 0xA0#8, 0x00#8] with
      | some s => Host.Core.run Sys2Proof.core 2 s
      | none => .refused .invalidConfiguration)
      (fun t => readReg t 1 == 5#32 && readReg t 2 == 15#32 && t.pc == 8#32) = true := by decide

/-! ### Witnesses: a state and operands that meet the hypotheses of each statement, at the edges of each clause -/

theorem witness_DecodeOfEncode :
    (Instr.jal 1 0x1FFFFE#21).wellFormed = true ∧ (Instr.bgeu 31 0 0x1000#13).wellFormed = true ∧
      (Instr.addi 31 31 0xFFF#12).wellFormed = true := by decide

theorem witness_EncodeOfDecode :
    decode 0xFFFFF0E7#32 = .ok (.jalr 1 31 0xFFF#12) ∧ decode 0x0012E083#32 = .ok (.lw 1 5 1#12) := ⟨eq_ok (by decide), eq_ok (by decide)⟩

theorem witness_TableDecidesTheInstruction :
    decode 0x41F2D093#32 = .ok (.srai 1 5 31#5) ∧
      (∃ row ∈ opcodeTable, 0x41F2D093#32 &&& row.mask = row.value) ∧
      (0x0012B083#32 : Word).toNat % 128 ∈ supportedOpcodes ∧ ∀ row ∈ opcodeTable, 0x0012B083#32 &&& row.mask ≠ row.value := ⟨eq_ok (by decide), by decide, by decide, by decide⟩

theorem witness_UnsupportedOpcodeExactly :
    (0x0000007F#32 : Word).toNat % 128 ∉ supportedOpcodes ∧ (0x003290E7#32 : Word).toNat % 128 = Opcode.jalr.bits.toNat := by decide

theorem witness_IllegalEncodingExactly :
    ConfigValid (at100 0x0002F083 [(5, 0x10000#32)] []).config ∧
      fetchWord (at100 0x0002F083 [(5, 0x10000#32)] []) = some 0x0002F083#32 ∧ IllegalWord 0x0002F083#32 ∧
      IllegalWord 0x0202D093#32 ∧ ¬IllegalWord 0x4012D093#32 := ⟨by decide, by decide, by simp [IllegalWord], by simp [IllegalWord], by simp [IllegalWord]⟩

/-- The hypotheses of `OpIllegal` and `OpImmIllegal` for one word. -/
abbrev MeetsIllegal (opcode : Nat) (w : Word) (funct3 : Nat) (legal : List Nat) : Prop :=
  w.toNat % 128 = opcode ∧ w.toNat / 2 ^ 12 % 8 = funct3 ∧ w.toNat / 2 ^ 25 ∉ legal

theorem witness_AddAndSub :
    0x01FF8FB3#32 &&& 0xFE00707F#32 = 0x00000033#32 ∧
      0x41FF8FB3#32 &&& 0xFE00707F#32 = 0x40000033#32 ∧
      MeetsIllegal 0x33 0x02A280B3#32 0 [0, 0x20] ∧
      MeetsIllegal 0x33 0xFEA280B3#32 0 [0, 0x20] := by decide

theorem witness_RegisterShifts :
    0x01FF9FB3#32 &&& 0xFE00707F#32 = 0x00001033#32 ∧
      0x01FFDFB3#32 &&& 0xFE00707F#32 = 0x00005033#32 ∧
      0x41FFDFB3#32 &&& 0xFE00707F#32 = 0x40005033#32 ∧
      MeetsIllegal 0x33 0x40A290B3#32 1 [0] ∧
      MeetsIllegal 0x33 0x02A2D0B3#32 5 [0, 0x20] := by decide

theorem witness_RegisterCompares :
    0x01FFAFB3#32 &&& 0xFE00707F#32 = 0x00002033#32 ∧
      0x01FFBFB3#32 &&& 0xFE00707F#32 = 0x00003033#32 ∧
      MeetsIllegal 0x33 0x40A2A0B3#32 2 [0] ∧
      MeetsIllegal 0x33 0x02A2B0B3#32 3 [0] := by decide

theorem witness_RegisterLogic :
    0x01FFCFB3#32 &&& 0xFE00707F#32 = 0x00004033#32 ∧
      0x01FFEFB3#32 &&& 0xFE00707F#32 = 0x00006033#32 ∧
      0x01FFFFB3#32 &&& 0xFE00707F#32 = 0x00007033#32 ∧
      MeetsIllegal 0x33 0x40A2C0B3#32 4 [0] ∧
      MeetsIllegal 0x33 0x02A2E0B3#32 6 [0] ∧
      MeetsIllegal 0x33 0x40A2F0B3#32 7 [0] := by decide

theorem witness_AddImmediate :
    0xFFFF8F93#32 &&& 0x0000707F#32 = 0x00000013#32 := by decide

theorem witness_ImmediateCompares :
    0xFFFFAF93#32 &&& 0x0000707F#32 = 0x00002013#32 ∧
      0xFFFFBF93#32 &&& 0x0000707F#32 = 0x00003013#32 := by decide

theorem witness_ImmediateLogic :
    0xFFFFCF93#32 &&& 0x0000707F#32 = 0x00004013#32 ∧
      0xFFFFEF93#32 &&& 0x0000707F#32 = 0x00006013#32 ∧
      0xFFFFFF93#32 &&& 0x0000707F#32 = 0x00007013#32 := by decide

theorem witness_ImmediateShifts :
    0x01FF9F93#32 &&& 0xFE00707F#32 = 0x00001013#32 ∧
      0x01FFDF93#32 &&& 0xFE00707F#32 = 0x00005013#32 ∧
      0x41FFDF93#32 &&& 0xFE00707F#32 = 0x40005013#32 ∧
      MeetsIllegal 0x13 0x40329093#32 1 [0] ∧
      MeetsIllegal 0x13 0x0202D093#32 5 [0, 0x20] := by decide

theorem witness_UpperImmediates :
    0xFFFFFFB7#32 &&& 0x0000007F#32 = 0x00000037#32 ∧
      0xFFFFFF97#32 &&& 0x0000007F#32 = 0x00000017#32 := by decide

theorem witness_EqualityBranches :
    0xFFFF8FE3#32 &&& 0x0000707F#32 = 0x00000063#32 ∧
      0xFFFF9FE3#32 &&& 0x0000707F#32 = 0x00001063#32 := by decide

theorem witness_SignedBranches :
    0xFFFFCFE3#32 &&& 0x0000707F#32 = 0x00004063#32 ∧
      0xFFFFDFE3#32 &&& 0x0000707F#32 = 0x00005063#32 := by decide

theorem witness_UnsignedBranches :
    0xFFFFEFE3#32 &&& 0x0000707F#32 = 0x00006063#32 ∧
      0xFFFFFFE3#32 &&& 0x0000707F#32 = 0x00007063#32 := by decide

theorem witness_JumpAndLink :
    0xFFFFFFEF#32 &&& 0x0000007F#32 = 0x0000006F#32 := by decide

theorem witness_JumpAndLinkRegister :
    0xFFFFFFE7#32 &&& 0x0000007F#32 = 0x00000067#32 := by decide

/-- The address `x[5] + 0` in a state of the reference configuration. -/
def eaOf (x5 : Word) : Word :=
  BitVec.ofInt 32 ((readReg (state MemConfig.reference 0x100#32 [(5, x5)] []) 5#5).toNat + (0#12).toInt)

/-- An access of `n` bytes at `x[5] + 0` is in the window (`true`) or not (`false`), as the load and store statements say it. -/
def insideAt (x5 : Word) (n : Nat) : Bool :=
  MemConfig.reference.lower ≤ (eaOf x5).toNat && (eaOf x5).toNat + (n - 1) ≤ MemConfig.reference.upper

theorem witness_SignedLoads :
    0xFFFF8F83#32 &&& 0x0000707F#32 = 0x00000003#32 ∧
      0xFFFF9F83#32 &&& 0x0000707F#32 = 0x00001003#32 ∧
      insideAt 0xFFF#32 1 = true ∧ insideAt 0x1000#32 1 = false ∧ insideAt 0xFFE#32 2 = true ∧ insideAt 0xFFF#32 2 = false := by decide

theorem witness_LoadWord :
    0xFFFFEF83#32 &&& 0x0000307F#32 = 0x00002003#32 ∧ insideAt 0xFFC#32 4 = true ∧ insideAt 0xFFD#32 4 = false ∧
      insideAt 0#32 4 = true ∧ insideAt 0xFFFFFFFE#32 4 = false := by decide

theorem witness_UnsignedLoads :
    0xFFFFCF83#32 &&& 0x0000707F#32 = 0x00004003#32 ∧
      0xFFFFDF83#32 &&& 0x0000707F#32 = 0x00005003#32 ∧
      insideAt 0xFFF#32 1 = true ∧ insideAt 0x1000#32 1 = false ∧ insideAt 0xFFE#32 2 = true ∧ insideAt 0xFFF#32 2 = false := by decide

theorem witness_StoresOfEachWidth :
    0xFFFFCFA3#32 &&& 0x0000307F#32 = 0x00000023#32 ∧
      0xFFFFDFA3#32 &&& 0x0000307F#32 = 0x00001023#32 ∧
      0xFFFFEFA3#32 &&& 0x0000307F#32 = 0x00002023#32 ∧
      effectiveAddress (state narrow 0x100#32 [(5, 0x1FC#32)] []) 5#5 0#12 = 0x1FC#32 ∧
      InWindow narrow 0x1FF#32 1 ∧ ¬InWindow narrow 0x200#32 1 ∧ ¬InWindow narrow 0xFF#32 1 ∧ InWindow narrow 0x100#32 1 ∧
      InWindow narrow 0x1FE#32 2 ∧ ¬InWindow narrow 0x1FF#32 2 ∧ InWindow narrow 0x1FC#32 4 ∧ ¬InWindow narrow 0x1FD#32 4 := by decide

theorem witness_StepRunsTheDecodedInstruction :
    ConfigValid (at100 0x00A280B3 [] []).config ∧
      InWindow (at100 0x00A280B3 [] []).config (at100 0x00A280B3 [] []).pc 4 ∧
      decode (byteAt (at100 0x00A280B3 [] []) 0x103 ++ byteAt (at100 0x00A280B3 [] []) 0x102 ++
        byteAt (at100 0x00A280B3 [] []) 0x101 ++ byteAt (at100 0x00A280B3 [] []) 0x100) = .ok (.add 1 5 10) := ⟨by decide, by decide, eq_ok (by decide)⟩

theorem witness_ConfigurationCheckedAndFixed :
    ¬ConfigValid ⟨4096, 2, 1⟩ ∧ ¬ConfigValid ⟨4096, 0, 4096⟩ ∧ ¬ConfigValid ⟨2 ^ 32 + 1, 0, 4095⟩ ∧
      ConfigValid ⟨2 ^ 32, 0, 2 ^ 32 - 1⟩ ∧ ConfigValid ⟨1, 0, 0⟩ ∧ (construct ⟨1, 0, 0⟩ [0x13#8]).isSome = true ∧
      ∃ t, step (at100 0x00000013 [] []) = .next t := by
  refine ⟨by decide, by decide, by decide, by decide, by decide, by decide, ?_⟩
  obtain ⟨t, h, -⟩ := exists_next (o := step (at100 0x00000013 [] []))
    (f := fun _ => true) (by decide)
  exact ⟨t, h⟩

theorem witness_FetchOutOfBoundsExactly :
    ConfigValid narrow ∧
      faultIs (step (state narrow 0x1FD#32 [] [])) (.fetchOutOfBounds 0x1FD#32 4) = true ∧
      faultIs (step (state narrow 0xFF#32 [] [])) (.fetchOutOfBounds 0xFF#32 4) = true ∧
      nextWith (step ((state narrow 0x1FC#32 [] []).withFetchWord 32 0x13)) (fun _ => true) = true ∧
      nextWith (step ((state narrow 0x100#32 [] []).withFetchWord 32 0x13)) (fun _ => true) = true := by decide

theorem witness_UnsupportedOpcodeRaised :
    ConfigValid (at100 0x00000073 [] []).config ∧
      faultIs (step (at100 0x00000073 [] [])) (.unsupportedOpcode 0x100#32 0x00000073#32) = true ∧
      fetchWord (at100 0x00000073 [] []) = some 0x00000073#32 ∧ (0x00000073#32 : Word).toNat % 128 ∉ supportedOpcodes := by decide

theorem witness_SystemAndExtensionWords :
    ConfigValid (at100 0x0FF0000F [] []).config ∧
      fetchWord (at100 0x0FF0000F [] []) = some 0x0FF0000F#32 ∧ (0x0FF0000F#32 : Word).toNat % 128 = 0x0F ∧
      fetchWord (at100 0x00010001 [] []) = some 0x00010001#32 ∧ (0x00010001#32 : Word).toNat % 4 ≠ 3 ∧
      fetchWord (at100 0x02A280B3 [] []) = some 0x02A280B3#32 ∧ (0x02A280B3#32 : Word).toNat % 128 = 0x33 ∧
      (0x02A280B3#32 : Word).toNat / 2 ^ 25 = 1 := by decide

theorem witness_OutcomesAreTheFive :
    ConfigValid State.reset.config ∧ ConfigValid narrow := by decide

theorem witness_ErrorsCarryTheirFields :
    step (state narrow 0x1FD#32 [] []) = .fault (.fetchOutOfBounds 0x1FD#32 4) ∧
      step (at100 0x00000073 [] []) = .fault (.unsupportedOpcode 0x100#32 0x00000073#32) ∧
      step (at100 0x00002463 [] []) = .fault (.illegalEncoding 0x100#32 0x00002463#32) ∧
      step (at100 0x00629023 [(5, 0xFFF#32)] []) = .fault (.memoryOutOfBounds 0x100#32 0xFFF#32 2) := ⟨eq_fault (by decide), eq_fault (by decide), eq_fault (by decide), eq_fault (by decide)⟩

theorem witness_MemoryErrorComesLast :
    step (at100 0x0002A083 [(5, 0xFFD#32)] []) = .fault (.memoryOutOfBounds 0x100#32 0xFFD#32 4) ∧
      step (at100 0x00628023 [(5, 0x1000#32)] []) = .fault (.memoryOutOfBounds 0x100#32 0x1000#32 1) := ⟨eq_fault (by decide), eq_fault (by decide)⟩

theorem witness_PcAfterEveryInstruction :
    ∃ t, exec (.beq 5 6 0x1000#13) (at100 0x13 [] []) = .next t ∧
      t.pc = pcAfter (.beq 5 6 0x1000#13) (at100 0x13 [] []) := by
  obtain ⟨t, h, hf⟩ := exists_next (o := exec (.beq 5 6 0x1000#13) (at100 0x13 [] []))
    (f := fun t => decide (t.pc = pcAfter (.beq 5 6 0x1000#13) (at100 0x13 [] []))) (by decide)
  exact ⟨t, h, of_decide_eq_true hf⟩

theorem witness_ZeroRegisterIsHardwired :
    ∃ t, step { at100 0x00500013 [] [] with regs := (at100 0x00500013 [] []).regs.set 0 7#32 } = .next t ∧
      t.regs[0] = 0#32 := by
  obtain ⟨t, h, hf⟩ := exists_next (o := step { at100 0x00500013 [] [] with regs := (at100 0x00500013 [] []).regs.set 0 7#32 })
    (f := fun t => decide (t.regs[0] = 0#32)) (by decide)
  exact ⟨t, h, of_decide_eq_true hf⟩

theorem witness_ZeroRegisterInputIgnored :
    ∃ t, step { at100 0x000000B3 [] [] with regs := (at100 0x000000B3 [] []).regs.set 0 7#32 } = .next t ∧
      readReg t 1#5 = 0#32 := by
  obtain ⟨t, h, hf⟩ := exists_next (o := step { at100 0x000000B3 [] [] with regs := (at100 0x000000B3 [] []).regs.set 0 7#32 })
    (f := fun t => decide (readReg t 1#5 = 0#32)) (by decide)
  exact ⟨t, h, of_decide_eq_true hf⟩

theorem witness_OneWriteEachInstruction :
    (∃ t, exec (.add 1 5 10) (at100 0x13 [(5, 2#32), (10, 3#32)] []) = .next t ∧
        destination (.add 1 5 10) = some 1#5 ∧ readReg t 1#5 = 5#32 ∧ readReg t 5#5 = 2#32) ∧
      ∃ t, exec (.sb 5 6 0#12) (at100 0x13 [(5, 0x2FF#32), (6, 1#32)] storeBytes) = .next t ∧
        storedTo (.sb 5 6 0#12) (at100 0x13 [(5, 0x2FF#32), (6, 1#32)] storeBytes) = some (0x2FF#32, 1) ∧
        written t 0x2FF = some 1#8 ∧
        written t 0x2FE = written (at100 0x13 [(5, 0x2FF#32), (6, 1#32)] storeBytes) 0x2FE ∧
        written t 0x300 = written (at100 0x13 [(5, 0x2FF#32), (6, 1#32)] storeBytes) 0x300 := by
  refine ⟨?_, ?_⟩
  · obtain ⟨t, h, hf⟩ := exists_next (o := exec (.add 1 5 10) (at100 0x13 [(5, 2#32), (10, 3#32)] []))
      (f := fun t => decide (readReg t 1#5 = 5#32 ∧ readReg t 5#5 = 2#32)) (by decide)
    exact ⟨t, h, rfl, of_decide_eq_true hf⟩
  · obtain ⟨t, h, hf⟩ := exists_next (o := exec (.sb 5 6 0#12) (at100 0x13 [(5, 0x2FF#32), (6, 1#32)] storeBytes))
      (f := fun t => decide (written t 0x2FF = some 1#8 ∧
        written t 0x2FE = written (at100 0x13 [(5, 0x2FF#32), (6, 1#32)] storeBytes) 0x2FE ∧
        written t 0x300 = written (at100 0x13 [(5, 0x2FF#32), (6, 1#32)] storeBytes) 0x300)) (by decide)
    exact ⟨t, h, by decide, of_decide_eq_true hf⟩

theorem witness_OnlyStoresWriteMemory :
    (∃ t, step (at100 0x0002A083 [(5, 0x200#32)] loadBytes) = .next t) ∧
      fetchInstr (at100 0x0002A083 [(5, 0x200#32)] loadBytes) = .ok (.lw 1 5 0#12) := by
  refine ⟨?_, (fetchInstr_eq_ok_iff _ _).2 ⟨0x0002A083#32, by decide, eq_ok (by decide)⟩⟩
  obtain ⟨t, h, -⟩ := exists_next (o := step (at100 0x0002A083 [(5, 0x200#32)] loadBytes))
    (f := fun _ => true) (by decide)
  exact ⟨t, h⟩

theorem witness_OutsideWindowNeverWritten :
    ∃ t, step ((state narrow 0x100#32 [(5, 0x1FE#32), (6, 0xBEEF#32)] []).withFetchWord 32 0x00629023) = .next t ∧
      written t 0x1FF = some 0xBE#8 ∧ 0x200 > narrow.upper ∧ 0xFF < narrow.lower := by
  obtain ⟨t, h, hf⟩ := exists_next (o := step ((state narrow 0x100#32 [(5, 0x1FE#32), (6, 0xBEEF#32)] []).withFetchWord 32 0x00629023))
    (f := fun t => decide (written t 0x1FF = some 0xBE#8 ∧ 0x200 > narrow.upper ∧ 0xFF < narrow.lower)) (by decide)
  exact ⟨t, h, of_decide_eq_true hf⟩

theorem witness_OutsideWindowNeverRead :
    AgreeInWindow (state narrow 0x100#32 [] [(0xFF, [1#8]), (0x200, [1#8])])
      (state narrow 0x100#32 [] [(0xFF, [2#8]), (0x200, [2#8])]) ∧
      byteAt (state narrow 0x100#32 [] [(0xFF, [1#8]), (0x200, [1#8])]) 0xFF ≠
        byteAt (state narrow 0x100#32 [] [(0xFF, [2#8]), (0x200, [2#8])]) 0xFF := by
  refine ⟨⟨rfl, rfl, rfl, fun a h1 h2 => ?_⟩, by decide⟩
  have e1 : a ≠ 0xFF := by intro e; subst e; revert h1; decide
  have e2 : a ≠ 0x200 := by intro e; subst e; revert h2; decide
  have m1 : (state narrow 0x100#32 [] [(0xFF, [1#8]), (0x200, [1#8])]).mem = [(0xFF, 1#8), (0x200, 1#8)] := by decide
  have m2 : (state narrow 0x100#32 [] [(0xFF, [2#8]), (0x200, [2#8])]).mem = [(0xFF, 2#8), (0x200, 2#8)] := by decide
  simp only [byteAt, m1, m2, Memory.get, e1, e2, if_false]

theorem witness_StepKeepsTheInvariant :
    (state narrow 0x102#32 [(1, 3#32)] [(0x102, [0x13#8, 0#8, 0#8, 0#8])]).Inv ∧
      ∃ t, step (state narrow 0x102#32 [(1, 3#32)] [(0x102, [0x13#8, 0#8, 0#8, 0#8])]) = .next t := by
  refine ⟨⟨by decide, by decide, by decide, by decide, by decide⟩, ?_⟩
  obtain ⟨t, h, -⟩ := exists_next (o := step (state narrow 0x102#32 [(1, 3#32)] [(0x102, [0x13#8, 0#8, 0#8, 0#8])]))

    (f := fun _ => true) (by decide)
  exact ⟨t, h⟩

theorem witness_ResetValues :
    0 < 32 ∧ 31 < 32 := by decide

theorem witness_ConstructionLoadsTheImage :
    (construct MemConfig.reference [0x93#8, 0x00#8, 0x50#8, 0x00#8]).isSome = true ∧
      (construct ⟨1, 0, 0⟩ [0x93#8]).isSome = true ∧ (construct ⟨1, 0, 0⟩ []).isSome = true ∧
      (construct ⟨1, 0, 0⟩ [0x93#8, 0x00#8]).isSome = false := by decide

theorem witness_BulkInitWritesTheImage :
    (⟨1, 0, 0⟩ : MemConfig).capacity < [1#8, 2#8].length ∧ [1#8].length ≤ (⟨1, 0, 0⟩ : MemConfig).capacity ∧ 0 < [1#8].length := by decide

theorem witness_WindowCheckExactly :
    ConfigValid narrow ∧ (memRead (state narrow 0#32 [] []) 0x1FC#32 4).isSome = true ∧
      (memRead (state narrow 0#32 [] []) 0x1FD#32 4).isSome = false ∧ (memRead (state narrow 0#32 [] []) 0x100#32 1).isSome = true ∧
      (memRead (state narrow 0#32 [] []) 0xFF#32 2).isSome = false ∧
      (memRead (state ⟨2 ^ 32, 0, 2 ^ 32 - 1⟩ 0#32 [] []) 0xFFFFFFFC#32 4).isSome = true ∧
      (memWrite (state ⟨2 ^ 32, 0, 2 ^ 32 - 1⟩ 0#32 [] []) 0xFFFFFFFD#32 4 0#32).isSome = false := by decide

theorem witness_MixedWidthAccesses :
    ConfigValid (state narrow 0#32 [] []).config ∧
      (memWrite (state narrow 0#32 [] []) 0x1FC#32 4 0x11223344#32).isSome = true := by decide

theorem witness_LoadReturnsTheLastStore :
    (∃ t, exec (.sw 5 6 0#12) (at100 0x13 [(5, 0xFFC#32)] []) = .next t) ∧
      (∃ t, exec (.sh 5 6 0#12) (at100 0x13 [(5, 0xFFE#32)] []) = .next t) ∧
      ∃ t, exec (.sb 5 6 0#12) (at100 0x13 [(5, 0xFFF#32)] []) = .next t := by
  refine ⟨?_, ?_, ?_⟩
  · obtain ⟨t, h, -⟩ := exists_next (o := exec (.sw 5 6 0#12) (at100 0x13 [(5, 0xFFC#32)] []))
      (f := fun _ => true) (by decide)
    exact ⟨t, h⟩
  · obtain ⟨t, h, -⟩ := exists_next (o := exec (.sh 5 6 0#12) (at100 0x13 [(5, 0xFFE#32)] []))
      (f := fun _ => true) (by decide)
    exact ⟨t, h⟩
  · obtain ⟨t, h, -⟩ := exists_next (o := exec (.sb 5 6 0#12) (at100 0x13 [(5, 0xFFF#32)] []))
      (f := fun _ => true) (by decide)
    exact ⟨t, h⟩

theorem witness_StoreIsSeenByFetch :
    ∃ t, exec (.sw 5 6 0#12) (at100 0x13 [(5, 0xFFC#32), (6, 0x00500093#32)] []) = .next t ∧ t.pc = 0x104#32 ∧
      effectiveAddress (at100 0x13 [(5, 0xFFC#32), (6, 0x00500093#32)] []) 5#5 0#12 = 0xFFC#32 ∧
      ∃ u : State, u.mem = t.mem ∧ u.config = t.config ∧ u.pc = 0xFFC#32 ∧ fetchWord u = some 0x00500093#32 := by
  obtain ⟨t, h, hf⟩ := exists_next (o := exec (.sw 5 6 0#12) (at100 0x13 [(5, 0xFFC#32), (6, 0x00500093#32)] []))
    (f := fun t => decide (t.pc = 0x104#32 ∧ fetchWord (setPc t 0xFFC#32) = some 0x00500093#32)) (by decide)
  have hf := of_decide_eq_true hf
  exact ⟨t, h, hf.1, by decide, setPc t 0xFFC#32, rfl, rfl, rfl, hf.2⟩

theorem witness_CanonicalMemoriesAreEqual :
    Memory.wf [(1, 2#8), (3, 4#8)] ∧
      ∀ a, Memory.get (Memory.set [(1, 2#8)] 3 4#8) a = Memory.get (Memory.set [(3, 4#8)] 1 2#8) a := ⟨by decide, fun _ => rfl⟩

theorem witness_SelfJumpNeverEnds :
    (at100 0x0000006F [] []).Inv ∧ fetchWord (at100 0x0000006F [] []) = some 0x0000006F#32 := ⟨⟨by decide, by decide, by decide, by decide, by decide⟩, by decide⟩

theorem witness_BadTargetFailsAtTheNextFetch :
    ConfigValid narrow ∧
      fetchInstr ((state narrow 0x100#32 [(5, 0x1FD#32)] []).withFetchWord 32 0x00128067) = .ok (.jalr 0 5 1#12) ∧ IsTransfer (.jalr 0 5 1#12) ∧
      (∃ t, step ((state narrow 0x100#32 [(5, 0x1FD#32)] []).withFetchWord 32 0x00128067) = .next t ∧ t.pc = 0x1FE#32 ∧
        faultIs (step t) (.fetchOutOfBounds 0x1FE#32 4) = true) ∧
      fetchInstr ((state narrow 0x100#32 [(5, 0x1FD#32)] []).withFetchWord 32 0xFE000EE3) = .ok (.beq 0 0 0x1FFC#13) ∧
      (∃ t, step ((state narrow 0x100#32 [(5, 0x1FD#32)] []).withFetchWord 32 0xFE000EE3) = .next t ∧ t.pc = 0xFC#32 ∧
        faultIs (step t) (.fetchOutOfBounds 0xFC#32 4) = true) ∧
      fetchInstr ((state narrow 0x100#32 [(5, 0x1FD#32)] []).withFetchWord 32 0x00000163) = .ok (.beq 0 0 2#13) ∧
      ∃ t, step ((state narrow 0x100#32 [(5, 0x1FD#32)] []).withFetchWord 32 0x00000163) = .next t ∧ t.pc = 0x102#32 ∧ InWindow t.config t.pc 4 ∧ t.pc.toNat % 4 = 2 := by
  refine ⟨by decide, (fetchInstr_eq_ok_iff _ _).2 ⟨0x00128067#32, by decide, eq_ok (by decide)⟩, trivial, ?_,
    (fetchInstr_eq_ok_iff _ _).2 ⟨0xFE000EE3#32, by decide, eq_ok (by decide)⟩, ?_,
    (fetchInstr_eq_ok_iff _ _).2 ⟨0x00000163#32, by decide, eq_ok (by decide)⟩, ?_⟩
  · obtain ⟨t, h, hf⟩ := exists_next (o := step ((state narrow 0x100#32 [(5, 0x1FD#32)] []).withFetchWord 32 0x00128067))
      (f := fun t => decide (t.pc = 0x1FE#32 ∧ faultIs (step t) (.fetchOutOfBounds 0x1FE#32 4) = true)) (by decide)
    exact ⟨t, h, of_decide_eq_true hf⟩
  · obtain ⟨t, h, hf⟩ := exists_next (o := step ((state narrow 0x100#32 [(5, 0x1FD#32)] []).withFetchWord 32 0xFE000EE3))
      (f := fun t => decide (t.pc = 0xFC#32 ∧ faultIs (step t) (.fetchOutOfBounds 0xFC#32 4) = true)) (by decide)
    exact ⟨t, h, of_decide_eq_true hf⟩
  · obtain ⟨t, h, hf⟩ := exists_next (o := step ((state narrow 0x100#32 [(5, 0x1FD#32)] []).withFetchWord 32 0x00000163))
      (f := fun t => decide (t.pc = 0x102#32 ∧ InWindow t.config t.pc 4 ∧ t.pc.toNat % 4 = 2)) (by decide)
    exact ⟨t, h, of_decide_eq_true hf⟩

end Sys2Proof.Tests
end

section
/-! PROOFS. Sign and zero extension as numbers (00_scope.md R8, R9). One lemma says the rule for a field of any width; the
five widths of the core are its instances. -/

namespace Sys2Proof.Machine

/-- R8 for a field of any width: extending keeps the two's-complement reading, which the top bit decides. -/
theorem toInt_signExtend_eq_ite {n : Nat} (b : BitVec n) (hn : n ≤ 32) :
    (b.signExtend 32).toInt = if b.getLsbD (n - 1) then (b.toNat : Int) - 2 ^ n else (b.toNat : Int) := by
  rw [BitVec.toInt_signExtend_of_le hn, BitVec.toInt_eq_msb_cond, BitVec.msb_eq_getLsbD_last]
  simp

/-- R8 for the field a load takes from the low `n` bits of a word. -/
theorem toInt_signExtend_low_eq_ite {n : Nat} (v : Word) (hpos : 0 < n) (hn : n ≤ 32) :
    ((v.extractLsb' 0 n).signExtend 32).toInt =
      if v.getLsbD (n - 1) then (v.toNat : Int) % 2 ^ n - 2 ^ n else (v.toNat : Int) % 2 ^ n := by
  have hbit : (v.extractLsb' 0 n).getLsbD (n - 1) = v.getLsbD (n - 1) := by
    simp [hpos]
  have hval : ((v.extractLsb' 0 n).toNat : Int) = (v.toNat : Int) % 2 ^ n := by
    simp
  rw [toInt_signExtend_eq_ite _ hn, hbit, hval]

/-- R9: the 12-bit field keeps its value, which fits in 32 bits. -/
theorem zext12_toNat (imm12 : BitVec 12) : (zext12 imm12).toNat = imm12.toNat :=
  BitVec.toNat_setWidth_of_le (by decide)

/-- Settles O8: the rule for any width, at 12, 13 and 21 bits of an immediate and at the low 8 and 16 bits of a loaded word. -/
theorem extensionsAreTwosComplement : Obligations.ExtensionsAreTwosComplement :=
  ⟨fun imm12 => toInt_signExtend_eq_ite imm12 (by decide),
   fun imm13 => toInt_signExtend_eq_ite imm13 (by decide),
   fun imm21 => toInt_signExtend_eq_ite imm21 (by decide),
   fun byte => toInt_signExtend_low_eq_ite byte (by decide) (by decide),
   fun half => toInt_signExtend_low_eq_ite half (by decide) (by decide),
   zext12_toNat⟩

end Sys2Proof.Machine
end

section
/-! PROOFS. The zero register (10_state.md R22, R23; 40_execution_engine.md R92, R96). Both forces of a step make `x[0]` 0 and hide
what the caller put there. -/

namespace Sys2Proof.Machine

/-- Every register but `x0` is plain storage (R22): `readReg_writeReg` with its side condition on the written register. -/
theorem readReg_writeReg_of_ne_zero (s : State) (rd r : RegIdx) (v : Word) (h : rd ≠ 0#5) :
    readReg (writeReg s rd v) r = if r = rd then v else readReg s r := by
  by_cases hr : r = rd
  · subst hr; simp [h]
  · simp [hr]

/-- R96: a step that completes ends with the force of `x[0]`. -/
theorem step_next_regs_zero {s t : State} (h : step s = .next t) : t.regs[0] = 0#32 := by
  obtain ⟨-, i, u, -, -, rfl⟩ := step_next h
  exact forceZero_zero u

/-- The force overwrites whatever `x[0]` held (R92). -/
@[simp] theorem forceZero_set_x0 (s : State) (v : Word) :
    forceZero { s with regs := s.regs.set 0 v } = forceZero s := by
  simp [forceZero]

/-- A step depends on the forced state only (R92): its configuration check does not look at the registers. -/
theorem step_congr_forceZero {s t : State} (h : forceZero s = forceZero t) : step s = step t := by
  have hc : s.config = t.config := by simpa using congrArg State.config h
  simp only [step, hc, h]

/-- Settles O36: the read and write rules of a register, and the force that ends a step. -/
theorem zeroRegisterIsHardwired : Obligations.ZeroRegisterIsHardwired :=
  ⟨readReg_zero, writeReg_zero, readReg_writeReg_of_ne_zero, fun _ _ => step_next_regs_zero⟩

/-- Settles O37: the force that begins a step hides the value, and the force that ends it clears `x[0]`. -/
theorem zeroRegisterInputIgnored : Obligations.ZeroRegisterInputIgnored := fun s v =>
  ⟨step_congr_forceZero (forceZero_set_x0 s v), fun _ => step_next_regs_zero⟩

end Sys2Proof.Machine
end

section
/-! PROOFS. The opcode of a word as a number, and what the decoder's record stage answers for it (30_encoding.md R61, R68, R69,
R77). -/

namespace Sys2Proof

open Sys2Proof.Claims

/-- R61: the opcode is the word modulo 2^7. -/
theorem opcodeField_toNat (w : Word) : (opcodeField w).toNat = w.toNat % 128 := by
  simp [opcodeField]

/-- A word has an opcode's bits exactly when its residue is the opcode's value. -/
theorem opcodeField_eq_bits_iff (w : Word) (o : Opcode) :
    opcodeField w = o.bits ↔ w.toNat % 128 = o.bits.toNat := by
  rw [← BitVec.toNat_inj, opcodeField_toNat]

/-- The list of R68, opcode by opcode. -/
theorem supportedOpcodes_eq_map : supportedOpcodes =
    [Opcode.lui, .auipc, .jal, .jalr, .branch, .load, .store, .opImm, .op].map (fun o => o.bits.toNat) := rfl

/-- The list of R68 holds exactly the values of the nine opcodes. -/
theorem mem_supportedOpcodes_iff (n : Nat) : n ∈ supportedOpcodes ↔ ∃ o : Opcode, n = o.bits.toNat := by
  constructor
  · intro hn
    rw [supportedOpcodes_eq_map] at hn
    obtain ⟨o, -, ho⟩ := List.mem_map.1 hn
    exact ⟨o, ho.symm⟩
  · rintro ⟨o, rfl⟩
    cases o <;> decide

/-- The record stage answers `none` exactly when the opcode is none of the nine (R77). -/
theorem decodeRecord_eq_none_iff (w : Word) : decodeRecord w = none ↔ w.toNat % 128 ∉ supportedOpcodes := by
  simp [decodeRecord, Opcode.ofBits_eq_none_iff, opcodeField_eq_bits_iff, mem_supportedOpcodes_iff]

/-- The record stage answers the record of the word's opcode, whatever the sub-code (R69). -/
theorem decodeRecord_of_opcode {w : Word} {o : Opcode} (h : w.toNat % 128 = o.bits.toNat) :
    decodeRecord w = some (recordOf w o) := by
  have hbits : opcodeField w = o.bits := (opcodeField_eq_bits_iff w o).2 h
  simp [decodeRecord, hbits]

/-- `decode` answers `UnsupportedOpcode` exactly where the record stage answers `none` (R77). -/
theorem decode_eq_unsupported_iff_decodeRecord (w : Word) :
    decode w = .error .unsupportedOpcode ↔ decodeRecord w = none := by
  rw [decode_eq_unsupported_iff, decodeRecord, Option.map_eq_none_iff]

/-- Settles O5: both stages follow the opcode's value alone. -/
theorem unsupportedOpcodeExactly : Obligations.UnsupportedOpcodeExactly := fun w =>
  ⟨(decode_eq_unsupported_iff_decodeRecord w).trans (decodeRecord_eq_none_iff w),
   (decodeRecord_eq_none_iff w).symm,
   fun _ => decodeRecord_of_opcode⟩

end Sys2Proof
end

section
/-! PROOFS. The detangled immediates as numbers (30_encoding.md R70 to R74). A field of a word is a quotient and a remainder, and
putting fields together shifts the high one by the width of the low one; each bit map is then a sum. -/

namespace Sys2Proof

/-- Two fields put together, as a number. -/
theorem toNat_append_eq_add {m n : Nat} (hi : BitVec m) (lo : BitVec n) :
    (hi ++ lo).toNat = hi.toNat * 2 ^ n + lo.toNat := by
  rw [BitVec.toNat_append, ← Nat.shiftLeft_add_eq_or_of_lt lo.isLt, Nat.shiftLeft_eq]

/-- A field of `len` bits from bit `start` up, as a number. -/
theorem toNat_field (w : Word) (start len : Nat) :
    (w.extractLsb' start len).toNat = w.toNat / 2 ^ start % 2 ^ len := by
  rw [BitVec.extractLsb'_toNat, Nat.shiftRight_eq_div_pow]

/-- A field that reaches up to bit 31 needs no remainder. -/
theorem toNat_top_field (w : Word) {start len : Nat} (h : start + len = 32) :
    (w.extractLsb' start len).toNat = w.toNat / 2 ^ start := by
  have hlt : w.toNat / 2 ^ start < 2 ^ len := by
    rw [Nat.div_lt_iff_lt_mul (by positivity), ← pow_add, Nat.add_comm, h]
    exact w.isLt
  rw [toNat_field, Nat.mod_eq_of_lt hlt]

/-- R70: the I-immediate is the word's top field. -/
theorem immI_toNat (w : Word) : (immI w).toNat = w.toNat / 2 ^ 20 :=
  toNat_top_field w rfl

/-- R71: the S-immediate joins two fields. -/
theorem immS_toNat (w : Word) :
    (immS w).toNat = w.toNat / 2 ^ 25 * 2 ^ 5 + w.toNat / 2 ^ 7 % 2 ^ 5 := by
  rw [immS, toNat_append_eq_add, toNat_top_field w rfl, toNat_field]

/-- R72: the B-immediate joins four fields above a 0 bit. -/
theorem immB_toNat (w : Word) :
    (immB w).toNat = w.toNat / 2 ^ 31 * 2 ^ 12 + w.toNat / 2 ^ 7 % 2 * 2 ^ 11 + w.toNat / 2 ^ 25 % 2 ^ 6 * 2 ^ 5 +
      w.toNat / 2 ^ 8 % 2 ^ 4 * 2 := by
  simp only [immB, toNat_append_eq_add, toNat_field, BitVec.toNat_zero]
  omega

/-- R73: the U-immediate is the word's top field above twelve 0 bits. -/
theorem immU_toNat (w : Word) : (immU w).toNat = w.toNat / 2 ^ 12 * 2 ^ 12 := by
  rw [immU, toNat_append_eq_add, toNat_top_field w rfl, BitVec.toNat_zero, Nat.add_zero]

/-- R74: the J-immediate joins four fields above a 0 bit. -/
theorem immJ_toNat (w : Word) :
    (immJ w).toNat = w.toNat / 2 ^ 31 * 2 ^ 20 + w.toNat / 2 ^ 12 % 2 ^ 8 * 2 ^ 12 + w.toNat / 2 ^ 20 % 2 * 2 ^ 11 +
      w.toNat / 2 ^ 21 % 2 ^ 10 * 2 := by
  simp only [immJ, toNat_append_eq_add, toNat_field, BitVec.toNat_zero]
  omega

/-- Settles O7: the five bit maps together. -/
theorem immediatesFromTheWord : Obligations.ImmediatesFromTheWord := fun w =>
  ⟨immI_toNat w, immS_toNat w, immB_toNat w, immU_toNat w, immJ_toNat w⟩

end Sys2Proof
end

section
/-! PROOFS. The errors of fetch and decode, as the step raises them (40_execution_engine.md R93, R94; 60_exceptions.md R202).
An instruction itself raises `Memory(OutOfBounds)` only, so every other error of a step is one of its fetch and decode. -/

namespace Sys2Proof

open Sys2Proof.Machine Sys2Proof.Claims

/-- In a valid configuration the step and its fetch and decode raise the same errors, `Memory(OutOfBounds)` aside (R208). -/
theorem step_eq_fault_iff_fetchInstr {s : State} {e : Fault} (hc : ConfigValid s.config)
    (he : ∀ ipc a n, e ≠ .memoryOutOfBounds ipc a n) : step s = .fault e ↔ fetchInstr s = .error e := by
  refine ⟨fun h => ?_, step_of_error hc⟩
  obtain ⟨-, hfetch | ⟨i, -, hexec⟩⟩ := step_fault h
  · exact hfetch
  · obtain ⟨a, n, -, -, hmem⟩ := exec_fault_cases hexec
    exact absurd hmem (he _ a n)

/-- Fetch and decode raise `Decode(UnsupportedOpcode)` on the fetched word, with the pc and that word as its fields (R94). -/
theorem fetchInstr_eq_unsupportedOpcode_iff (s : State) (ipc v : Word) :
    fetchInstr s = .error (.unsupportedOpcode ipc v) ↔
      ipc = s.pc ∧ fetchWord s = some v ∧ decode v = .error .unsupportedOpcode := by
  rw [fetchInstr_eq_error_iff]
  constructor
  · rintro (⟨-, h⟩ | ⟨w, hw, hd, h⟩ | ⟨w, -, -, h⟩)
    · cases h
    · cases h; exact ⟨rfl, hw, hd⟩
    · cases h
  · rintro ⟨rfl, hw, hd⟩
    exact .inr (.inl ⟨v, hw, hd, rfl⟩)

/-- The step's `Decode(UnsupportedOpcode)`: the pc, the fetched word, and an opcode that is none of the nine (R94, R202). -/
theorem step_eq_unsupportedOpcode_iff {s : State} (hc : ConfigValid s.config) (ipc v : Word) :
    step s = .fault (.unsupportedOpcode ipc v) ↔
      ipc = s.pc ∧ fetchWord s = some v ∧ v.toNat % 128 ∉ supportedOpcodes := by
  obtain ⟨hopcode, -, -⟩ := unsupportedOpcodeExactly v
  rw [step_eq_fault_iff_fetchInstr hc (fun _ _ _ => Fault.noConfusion), fetchInstr_eq_unsupportedOpcode_iff, hopcode]

/-- Settles O30: the error's fields are the pc and the fetched word, so some fields exist exactly when such a word does. -/
theorem unsupportedOpcodeRaised : Obligations.UnsupportedOpcodeRaised := by
  intro s hc
  simp only [step_eq_unsupportedOpcode_iff hc, exists_and_left, exists_eq_left]

end Sys2Proof
end

section
/-! PROOFS. The immediate compares and the immediate logic (42_alu_immediate.md R122 to R126). How a word's mask decides its
instruction, and what a completed register write leaves, are said once, for any instruction. -/

namespace Sys2Proof

open Sys2Proof.Machine Sys2Proof.Claims

/-- Under a mask that keeps the opcode, the value names the record and the record selects the instruction (R89). -/
theorem encodes_of_selectInstr {mask value : Word} {f : Word → Instr} (o : Opcode)
    (hmask : mask.extractLsb' 0 7 = 127#7) (hopcode : value.extractLsb' 0 7 = o.bits)
    (hselect : ∀ w, w &&& mask = value → selectInstr (recordOf w o) = some (f w)) : Encodes mask value f := by
  intro w hw
  have hbits : opcodeField w = o.bits := (opcodeField_of_mask hw hmask).trans hopcode
  exact (decode_eq_ok_iff w (f w)).2 ⟨o, by rw [hbits, Opcode.ofBits_bits], hselect w hw⟩

/-- An OP-IMM word whose funct3 alone names the instruction: the whole immediate is an operand (R80, R120). -/
theorem encodes_of_selectOpImm {value : Word} {c : RegIdx → RegIdx → BitVec 12 → Instr}
    (hopcode : value.extractLsb' 0 7 = Opcode.opImm.bits)
    (hselect : ∀ rd rs1 imm12, selectOpImm (value.extractLsb' 12 3) rd rs1 imm12 = some (c rd rs1 imm12)) :
    Encodes 0x0000707F#32 value (iType c) := by
  refine encodes_of_selectInstr .opImm (by decide) hopcode fun w hw => ?_
  have hfunct3 : funct3Field w = value.extractLsb' 12 3 := funct3Field_of_mask hw
  rw [recordOf, selectInstr, hfunct3, hselect]
  rfl

/-- An instruction that answers a register write and a pc leaves everything else unchanged, `rd = x0` included (R95). -/
theorem writes_of_exec {i : Instr} {s : State} {rd : RegIdx} {v p : Word}
    (h : exec i s = .next (setPc (writeReg s rd v) p)) : Writes i s rd v p :=
  ⟨_, h, setPc_pc .., fun r => readReg_completed s rd r v p, by simp, by simp⟩

/-- R8: the sign-extended immediate keeps its signed reading. -/
theorem sext12_toInt (imm12 : BitVec 12) : (sext12 imm12).toInt = imm12.toInt :=
  BitVec.toInt_signExtend_of_le (by decide)

/-- R8: the sign-extended immediate is the 32-bit pattern of its signed reading. -/
theorem sext12_eq_ofInt (imm12 : BitVec 12) : sext12 imm12 = BitVec.ofInt 32 imm12.toInt :=
  signExtend_eq_ofInt imm12 (by decide)

/-- Settles O14: SLTI orders the signed readings, which the sign extension keeps; SLTIU the unsigned ones, which the zero
extension keeps. -/
theorem immediateCompares : Obligations.ImmediateCompares := by
  refine ⟨encodes_of_selectOpImm rfl fun _ _ _ => rfl, encodes_of_selectOpImm rfl fun _ _ _ => rfl,
    fun rd rs1 imm12 s => ⟨?slti, ?sltiu⟩⟩
  case slti =>
    rw [← sext12_toInt, ← boolWord_lessSigned]
    exact writes_of_exec (exec_slti ..)
  case sltiu =>
    rw [← zext12_toNat, ← boolWord_lessUnsigned]
    exact writes_of_exec (exec_sltiu ..)

/-- Settles O15: each instruction writes its bitwise result with the sign-extended immediate. -/
theorem immediateLogic : Obligations.ImmediateLogic := by
  refine ⟨encodes_of_selectOpImm rfl fun _ _ _ => rfl, encodes_of_selectOpImm rfl fun _ _ _ => rfl,
    encodes_of_selectOpImm rfl fun _ _ _ => rfl, fun rd rs1 imm12 s => ?_⟩
  rw [← sext12_eq_ofInt]
  exact ⟨writes_of_exec (exec_xori ..), writes_of_exec (exec_ori ..), writes_of_exec (exec_andi ..)⟩

end Sys2Proof
end

section
/-! PROOFS. Loads and stores (43_load_store.md R140 to R151). What any load and any store does inside and outside the window
is said once, for every width; an instruction adds its width and the value of its bytes. -/

namespace Sys2Proof

open Sys2Proof.Machine Sys2Proof.Claims

/-! ### The words of LOAD and STORE (R82, R83) -/

/-- A LOAD word whose funct3 selects `c` is `c` of its I-format operands. -/
theorem selectInstr_load_of_funct3 {w : Word} {f3 : BitVec 3} {c : RegIdx → RegIdx → BitVec 12 → Instr}
    (hf3 : funct3Field w = f3) (hselect : ∀ rd rs1 imm12, selectLoad f3 rd rs1 imm12 = some (c rd rs1 imm12)) :
    selectInstr (recordOf w .load) = some (iType c w) := by
  rw [recordOf, selectInstr, hf3, hselect]
  rfl

/-- A STORE word whose funct3 selects `c` is `c` of its S-format operands. -/
theorem selectInstr_store_of_funct3 {w : Word} {f3 : BitVec 3} {c : RegIdx → RegIdx → BitVec 12 → Instr}
    (hf3 : funct3Field w = f3) (hselect : ∀ rs1 rs2 imm12, selectStore f3 rs1 rs2 imm12 = some (c rs1 rs2 imm12)) :
    selectInstr (recordOf w .store) = some (sType c w) := by
  rw [recordOf, selectInstr, hf3, hselect]
  rfl

/-- A load that reads all of funct3: LB, LH, LBU, LHU (R82). -/
theorem encodes_of_selectLoad {value : Word} {c : RegIdx → RegIdx → BitVec 12 → Instr}
    (hopcode : value.extractLsb' 0 7 = Opcode.load.bits)
    (hselect : ∀ rd rs1 imm12, selectLoad (value.extractLsb' 12 3) rd rs1 imm12 = some (c rd rs1 imm12)) :
    Encodes 0x0000707F#32 value (iType c) :=
  encodes_of_selectInstr .load (by decide) hopcode fun _ hw =>
    selectInstr_load_of_funct3 (funct3Field_of_mask hw) hselect

/-- A load that leaves funct3[2] open: LW, whose two values of funct3 select it (R82). -/
theorem encodes_of_selectLoad_width {value : Word} {c : RegIdx → RegIdx → BitVec 12 → Instr}
    (hopcode : value.extractLsb' 0 7 = Opcode.load.bits)
    (hlow : ∀ rd rs1 imm12, selectLoad (value.extractLsb' 12 3) rd rs1 imm12 = some (c rd rs1 imm12))
    (hhigh : ∀ rd rs1 imm12, selectLoad (value.extractLsb' 12 3 + 4#3) rd rs1 imm12 = some (c rd rs1 imm12)) :
    Encodes 0x0000307F#32 value (iType c) := by
  refine encodes_of_selectInstr .load (by decide) hopcode fun w hw => ?_
  obtain hf3 | hf3 := funct3Field_of_width_mask hw
  · exact selectInstr_load_of_funct3 hf3 hlow
  · exact selectInstr_load_of_funct3 hf3 hhigh

/-- A store leaves funct3[2] open: two values of funct3 select it (R83). -/
theorem encodes_of_selectStore_width {value : Word} {c : RegIdx → RegIdx → BitVec 12 → Instr}
    (hopcode : value.extractLsb' 0 7 = Opcode.store.bits)
    (hlow : ∀ rs1 rs2 imm12, selectStore (value.extractLsb' 12 3) rs1 rs2 imm12 = some (c rs1 rs2 imm12))
    (hhigh : ∀ rs1 rs2 imm12, selectStore (value.extractLsb' 12 3 + 4#3) rs1 rs2 imm12 = some (c rs1 rs2 imm12)) :
    Encodes 0x0000307F#32 value (sType c) := by
  refine encodes_of_selectInstr .store (by decide) hopcode fun w hw => ?_
  obtain hf3 | hf3 := funct3Field_of_width_mask hw
  · exact selectInstr_store_of_funct3 hf3 hlow
  · exact selectInstr_store_of_funct3 hf3 hhigh

/-! ### The window by its first and last byte (R41) -/

/-- The `k + 1` bytes at `a` are outside the window when the first is below it or the last above it. -/
theorem not_inWindow_succ {c : MemConfig} {a : Word} {k : Nat}
    (h : a.toNat < c.lower ∨ c.upper < a.toNat + k) : ¬InWindow c a (k + 1) := by
  omega

/-! ### The values of bytes -/

/-- The low field of a zero-extended value is the value. -/
theorem extractLsb'_setWidth_cancel {n : Nat} (b : BitVec n) (hn : n ≤ 32) : (b.setWidth 32).extractLsb' 0 n = b := by
  rw [← BitVec.setWidth_eq_extractLsb' hn, BitVec.setWidth_setWidth_of_le b hn, BitVec.setWidth_eq]

/-- LB sign-extends the byte that the read zero-extended (R141). -/
theorem sextByte_setWidth (b : Byte) : sextByte (b.setWidth 32) = BitVec.ofInt 32 b.toInt := by
  rw [sextByte, extractLsb'_setWidth_cancel b (by decide), signExtend_eq_ofInt b (by decide)]

/-- LH sign-extends the halfword that the read zero-extended (R142). -/
theorem sextHalf_setWidth (h : BitVec 16) : sextHalf (h.setWidth 32) = BitVec.ofInt 32 h.toInt := by
  rw [sextHalf, extractLsb'_setWidth_cancel h (by decide), signExtend_eq_ofInt h (by decide)]

/-- Byte `k` of a value, as a number (R43). -/
theorem byteOf_eq_ofNat (v : Word) (k : Nat) : byteOf v k = BitVec.ofNat 8 (v.toNat / 2 ^ (8 * k)) := by
  rw [byteOf, BitVec.extractLsb', Nat.shiftRight_eq_div_pow]

/-! ### One load and one store, whatever the width (R140, R147) -/

section
variable {i : Instr} {s : State} {rd rs1 rs2 : RegIdx} {imm12 : BitVec 12} {n : Nat} {extend : Word → Word}

/-- A load inside the window writes the extended value of its bytes and nothing else (R140). -/
theorem writes_of_loadWith (hexec : exec i s = loadWith n extend rd rs1 imm12 s) {v : Word}
    (hv : extend (loadLE s (effectiveAddress s rs1 imm12).toNat n) = v)
    (hw : InWindow s.config (effectiveAddress s rs1 imm12) n) : Writes i s rd v (s.pc + 4#32) :=
  writes_of_exec (by rw [hexec, loadWith_of_inWindow hw, hv])

/-- A load outside the window raises `Memory(OutOfBounds)`, whatever `rd` is (R140). -/
theorem raisesMemory_of_loadWith (hexec : exec i s = loadWith n extend rd rs1 imm12 s)
    (hw : ¬InWindow s.config (effectiveAddress s rs1 imm12) n) : RaisesMemory i s :=
  ⟨_, _, _, hexec.trans (loadWith_of_not_inWindow hw)⟩

/-- A store inside the window changes its `n` bytes and the pc only (R147). -/
theorem stores_of_storeWith (hexec : exec i s = storeWith n rs1 rs2 imm12 s)
    (hw : InWindow s.config (effectiveAddress s rs1 imm12) n) :
    Stores i s (effectiveAddress s rs1 imm12) n (readReg s rs2) := by
  refine ⟨_, hexec.trans (storeWith_of_inWindow hw), rfl, fun _ => rfl, fun k hk => ?stored, fun x hx => ?kept, rfl⟩
  case stored =>
    rw [byteAt_setPc, byteAt_storeLE, if_pos (by omega), Nat.add_sub_cancel_left, byteOf_eq_ofNat]
  case kept =>
    rw [byteAt_setPc, byteAt_storeLE, if_neg (by omega)]

/-- A store outside the window raises `Memory(OutOfBounds)` (R147). -/
theorem raisesMemory_of_storeWith (hexec : exec i s = storeWith n rs1 rs2 imm12 s)
    (hw : ¬InWindow s.config (effectiveAddress s rs1 imm12) n) : RaisesMemory i s :=
  ⟨_, _, _, hexec.trans (storeWith_of_not_inWindow hw)⟩

end

/-! ### The eight instructions -/

/-- Settles O18: LB and LH are the load of widths 1 and 2, their values sign-extended. -/
theorem signedLoads : Obligations.SignedLoads := by
  refine ⟨encodes_of_selectLoad rfl fun _ _ _ => rfl, encodes_of_selectLoad rfl fun _ _ _ => rfl,
    fun rd rs1 imm12 s => ?_⟩
  rw [← effectiveAddress_eq]
  refine ⟨fun hlo hhi => writes_of_loadWith (exec_lb ..) ?lb ⟨hlo, hhi⟩,
    fun hout => raisesMemory_of_loadWith (exec_lb ..) (not_inWindow_succ hout),
    fun hlo hhi => writes_of_loadWith (exec_lh ..) ?lh ⟨hlo, hhi⟩,
    fun hout => raisesMemory_of_loadWith (exec_lh ..) (not_inWindow_succ hout)⟩
  case lb => rw [loadLE_one, sextByte_setWidth]
  case lh => rw [loadLE_two, sextHalf_setWidth]

/-- Settles O19: LW is the load of width 4, its value the four bytes; both values of funct3[2] select it. -/
theorem loadWord : Obligations.LoadWord := by
  refine ⟨encodes_of_selectLoad_width rfl (fun _ _ _ => rfl) (fun _ _ _ => rfl), fun rd rs1 imm12 s => ?_⟩
  rw [← effectiveAddress_eq]
  exact ⟨fun hlo hhi => writes_of_loadWith (exec_lw ..) (loadLE_four ..) ⟨hlo, hhi⟩,
    fun hout => raisesMemory_of_loadWith (exec_lw ..) (not_inWindow_succ hout)⟩

/-- Settles O20: LBU and LHU are the load of widths 1 and 2, whose value the read has zero-extended already (R42). -/
theorem unsignedLoads : Obligations.UnsignedLoads := by
  refine ⟨encodes_of_selectLoad rfl fun _ _ _ => rfl, encodes_of_selectLoad rfl fun _ _ _ => rfl,
    fun rd rs1 imm12 s => ?_⟩
  rw [← effectiveAddress_eq]
  refine ⟨fun hlo hhi => writes_of_loadWith (exec_lbu ..) ?lbu ⟨hlo, hhi⟩,
    fun hout => raisesMemory_of_loadWith (exec_lbu ..) (not_inWindow_succ hout),
    fun hlo hhi => writes_of_loadWith (exec_lhu ..) ?lhu ⟨hlo, hhi⟩,
    fun hout => raisesMemory_of_loadWith (exec_lhu ..) (not_inWindow_succ hout)⟩
  case lbu => rw [loadLE_one, BitVec.ofNat_toNat]
  case lhu => rw [loadLE_two, BitVec.ofNat_toNat]

/-- Settles O21: SB, SH and SW are the store of widths 1, 2 and 4; both values of funct3[2] select each. -/
theorem storesOfEachWidth : Obligations.StoresOfEachWidth :=
  ⟨encodes_of_selectStore_width rfl (fun _ _ _ => rfl) (fun _ _ _ => rfl),
   encodes_of_selectStore_width rfl (fun _ _ _ => rfl) (fun _ _ _ => rfl),
   encodes_of_selectStore_width rfl (fun _ _ _ => rfl) (fun _ _ _ => rfl),
   fun rs1 rs2 imm12 s =>
    ⟨effectiveAddress_eq s rs1 imm12,
     fun hlo hhi => stores_of_storeWith (exec_sb ..) ⟨hlo, hhi⟩,
     fun hout => raisesMemory_of_storeWith (exec_sb rs1 rs2 imm12 s) (not_inWindow_succ hout),
     fun hlo hhi => stores_of_storeWith (exec_sh ..) ⟨hlo, hhi⟩,
     fun hout => raisesMemory_of_storeWith (exec_sh rs1 rs2 imm12 s) (not_inWindow_succ hout),
     fun hlo hhi => stores_of_storeWith (exec_sw ..) ⟨hlo, hhi⟩,
     fun hout => raisesMemory_of_storeWith (exec_sw rs1 rs2 imm12 s) (not_inWindow_succ hout)⟩⟩

end Sys2Proof
end

section
/-! PROOFS. The upper immediates (44_upper_immediate.md R160, R161). Their words have no sub-code: the opcode alone names the
instruction. -/

namespace Sys2Proof

open Sys2Proof.Machine Sys2Proof.Claims

/-- An opcode whose every record selects `c` of its U-format operands: no bit outside the opcode is looked at (R66, R73). -/
theorem encodes_of_uRecord {value : Word} {c : RegIdx → BitVec 20 → Instr} (o : Opcode)
    (hopcode : value.extractLsb' 0 7 = o.bits)
    (hselect : ∀ w, selectInstr (recordOf w o) = some (c (rdField w) ((immU w).extractLsb' 12 20))) :
    Encodes 0x0000007F#32 value (uType c) := by
  refine encodes_of_selectInstr o (by decide) hopcode fun w _ => ?_
  rw [hselect, immU_31_12]
  rfl

/-- R161: the sum with the instruction's own pc, as a number modulo 2^32. -/
theorem upperImm_add_eq_ofNat (imm20 : BitVec 20) (p : Word) :
    upperImm imm20 + p = BitVec.ofNat 32 (imm20.toNat * 2 ^ 12 + p.toNat) := by
  rw [upperImm_eq, BitVec.ofNat_add, BitVec.ofNat_toNat, BitVec.setWidth_eq]

/-- Settles O17: LUI writes the shifted immediate and AUIPC its sum with the pc it was fetched from. -/
theorem upperImmediates : Obligations.UpperImmediates := by
  refine ⟨encodes_of_uRecord .lui rfl fun _ => rfl, encodes_of_uRecord .auipc rfl fun _ => rfl,
    fun rd imm20 s => ⟨?lui, ?auipc⟩⟩
  case lui =>
    rw [← upperImm_eq]
    exact writes_of_exec (exec_lui ..)
  case auipc =>
    rw [← upperImm_add_eq_ofNat]
    exact writes_of_exec (exec_auipc ..)

end Sys2Proof
end

section
/-! PROOFS. Branches and JAL (45_control_transfer.md R170 to R178). What any branch does is said once, for any condition; an
instruction adds its comparison. -/

namespace Sys2Proof

open Sys2Proof.Machine Sys2Proof.Claims

/-! ### The words of BRANCH (R81) -/

/-- A BRANCH word's funct3 alone names the instruction: every other field is an operand (R65, R81). -/
theorem encodes_of_selectBranch {value : Word} {c : RegIdx → RegIdx → BitVec 13 → Instr}
    (hopcode : value.extractLsb' 0 7 = Opcode.branch.bits)
    (hselect : ∀ rs1 rs2 imm13, selectBranch (value.extractLsb' 12 3) rs1 rs2 imm13 = some (c rs1 rs2 imm13)) :
    Encodes 0x0000707F#32 value (bType c) := by
  refine encodes_of_selectInstr .branch (by decide) hopcode fun w hw => ?_
  have hfunct3 : funct3Field w = value.extractLsb' 12 3 := funct3Field_of_mask hw
  rw [recordOf, selectInstr, hfunct3, hselect]
  rfl

/-! ### Conditions -/

/-- `not (a <s b)` is the reverse weak order of the signed readings (R174). -/
theorem not_lessSigned_iff (a b : Word) : (!lessSigned a b) = true ↔ b.toInt ≤ a.toInt := by
  rw [Bool.not_eq_true', ← Bool.not_eq_true, lessSigned_iff, not_lt]

/-- `not (a <u b)` is the reverse weak order of the unsigned readings (R176). -/
theorem not_lessUnsigned_iff (a b : Word) : (!lessUnsigned a b) = true ↔ b.toNat ≤ a.toNat := by
  rw [Bool.not_eq_true', ← Bool.not_eq_true, lessUnsigned_iff, not_lt]

/-! ### One branch, whatever its condition (R170) -/

/-- An instruction that answers a pc alone leaves everything else unchanged (R97). -/
theorem transfers_of_exec {i : Instr} {s : State} {p : Word} (h : exec i s = .next (setPc s p)) : Transfers i s p :=
  ⟨_, h, setPc_pc .., readReg_setPc s p, byteAt_setPc s p, setPc_config ..⟩

/-- A branch whose test computes `P` goes to its target if `P` holds and to `ipc + 4` otherwise (R170). -/
theorem transfers_of_branch {i : Instr} {s : State} {imm13 : BitVec 13} {test : Bool} {P : Prop} [Decidable P]
    (hexec : exec i s = .next (setPc s (if test then s.pc + sext13 imm13 else s.pc + 4#32)))
    (htest : test = true ↔ P) :
    Transfers i s (if P then BitVec.ofInt 32 (s.pc.toNat + imm13.toInt) else s.pc + 4#32) := by
  rw [← if_congr htest (branchTarget_eq s imm13) rfl]
  exact transfers_of_exec hexec

/-! ### The instructions -/

/-- Settles O22: BEQ and BNE are the branches on equality and on its negation. -/
theorem equalityBranches : Obligations.EqualityBranches :=
  ⟨encodes_of_selectBranch rfl fun _ _ _ => rfl, encodes_of_selectBranch rfl fun _ _ _ => rfl,
   fun _ _ _ _ =>
    ⟨transfers_of_branch (exec_beq ..) beq_iff_eq,
     transfers_of_branch (exec_bne ..) bne_iff_ne⟩⟩

/-- Settles O23: BLT and BGE are the branches on the signed order and on its negation. -/
theorem signedBranches : Obligations.SignedBranches :=
  ⟨encodes_of_selectBranch rfl fun _ _ _ => rfl, encodes_of_selectBranch rfl fun _ _ _ => rfl,
   fun _ _ _ _ =>
    ⟨transfers_of_branch (exec_blt ..) (lessSigned_iff ..),
     transfers_of_branch (exec_bge ..) (not_lessSigned_iff ..)⟩⟩

/-- Settles O24: BLTU and BGEU are the branches on the unsigned order and on its negation. -/
theorem unsignedBranches : Obligations.UnsignedBranches :=
  ⟨encodes_of_selectBranch rfl fun _ _ _ => rfl, encodes_of_selectBranch rfl fun _ _ _ => rfl,
   fun _ _ _ _ =>
    ⟨transfers_of_branch (exec_bltu ..) (lessUnsigned_iff ..),
     transfers_of_branch (exec_bgeu ..) (not_lessUnsigned_iff ..)⟩⟩

/-- Settles O25: JAL's opcode names it, and it writes the link and sets the pc to its target, `rd = x0` included. -/
theorem jumpAndLink : Obligations.JumpAndLink := by
  refine ⟨encodes_of_selectInstr .jal (by decide) rfl fun _ _ => rfl, fun rd imm21 s => ?_⟩
  rw [← nextPc_eq, ← jalTarget_eq]
  exact writes_of_exec (exec_jal ..)

end Sys2Proof
end

section
/-! PROOFS. Decoding is the inverse of encoding (30_encoding.md R62 to R69, R89). An encoded word has its opcode's bits and the
record of its operands, so that it decodes to what the opcode's selection makes of them; the instruction is one case of it. -/

namespace Sys2Proof

open Sys2Proof.Machine Sys2Proof.Claims

/-! ### Decoding an encoded word -/

/-- A word with an opcode's bits decodes to what the record of that opcode selects (R77, R79). -/
theorem decode_of_opcodeField {w : Word} {i : Instr} (o : Opcode) (hopcode : opcodeField w = o.bits)
    (hselect : selectInstr (recordOf w o) = some i) : decode w = .ok i :=
  (decode_eq_ok_iff w i).2 ⟨o, by rw [hopcode, Opcode.ofBits_bits], hselect⟩

section
variable {i : Instr} {rd rs1 rs2 : RegIdx} {f3 : BitVec 3} {f7 : BitVec 7} {imm12 : BitVec 12} {imm13 : BitVec 13}
  {imm20 : BitVec 20} {imm21 : BitVec 21}

theorem decode_encodeU_lui : decode (encodeU imm20 rd Opcode.lui.bits) = .ok (.lui rd imm20) :=
  decode_of_opcodeField .lui (opcodeField_encodeU ..) (by simp [recordOf, selectInstr])

theorem decode_encodeU_auipc : decode (encodeU imm20 rd Opcode.auipc.bits) = .ok (.auipc rd imm20) :=
  decode_of_opcodeField .auipc (opcodeField_encodeU ..) (by simp [recordOf, selectInstr])

theorem decode_encodeJ_jal (heven : (!imm21.getLsbD 0) = true) :
    decode (encodeJ imm21 rd Opcode.jal.bits) = .ok (.jal rd imm21) := by
  have himm : immJ (encodeJ imm21 rd Opcode.jal.bits) = imm21 := immJ_encodeJ _ _ _ (by simpa using heven)
  exact decode_of_opcodeField .jal (opcodeField_encodeJ ..) (by simp [recordOf, selectInstr, himm])

theorem decode_encodeI_jalr : decode (encodeI imm12 rs1 f3 rd Opcode.jalr.bits) = .ok (.jalr rd rs1 imm12) :=
  decode_of_opcodeField .jalr (opcodeField_encodeI ..) (by simp [recordOf, selectInstr])

theorem decode_encodeB_branch (heven : (!imm13.getLsbD 0) = true) (h : selectBranch f3 rs1 rs2 imm13 = some i) :
    decode (encodeB imm13 rs2 rs1 f3 Opcode.branch.bits) = .ok i := by
  have himm : immB (encodeB imm13 rs2 rs1 f3 Opcode.branch.bits) = imm13 := immB_encodeB _ _ _ _ _ (by simpa using heven)
  exact decode_of_opcodeField .branch (opcodeField_encodeB ..) (by simp [recordOf, selectInstr, himm, h])

theorem decode_encodeI_load (h : selectLoad f3 rd rs1 imm12 = some i) :
    decode (encodeI imm12 rs1 f3 rd Opcode.load.bits) = .ok i :=
  decode_of_opcodeField .load (opcodeField_encodeI ..) (by simp [recordOf, selectInstr, h])

theorem decode_encodeS_store (h : selectStore f3 rs1 rs2 imm12 = some i) :
    decode (encodeS imm12 rs2 rs1 f3 Opcode.store.bits) = .ok i :=
  decode_of_opcodeField .store (opcodeField_encodeS ..) (by simp [recordOf, selectInstr, h])

theorem decode_encodeI_opImm (h : selectOpImm f3 rd rs1 imm12 = some i) :
    decode (encodeI imm12 rs1 f3 rd Opcode.opImm.bits) = .ok i :=
  decode_of_opcodeField .opImm (opcodeField_encodeI ..) (by simp [recordOf, selectInstr, h])

theorem decode_encodeR_op (h : selectOp f3 f7 rd rs1 rs2 = some i) :
    decode (encodeR f7 rs2 rs1 f3 rd Opcode.op.bits) = .ok i :=
  decode_of_opcodeField .op (opcodeField_encodeR ..) (by simp [recordOf, selectInstr, h])

end

section
variable (rd rs1 : RegIdx) (shamt : BitVec 5)

/-! The immediate of an encoded shift splits again into the checked field and the shift amount (R120). -/

theorem selectOpImm_slli : selectOpImm 0b001#3 rd rs1 (0b0000000#7 ++ shamt) = some (.slli rd rs1 shamt) := by
  simp [selectOpImm]

theorem selectOpImm_srli : selectOpImm 0b101#3 rd rs1 (0b0000000#7 ++ shamt) = some (.srli rd rs1 shamt) := by
  simp [selectOpImm]

theorem selectOpImm_srai : selectOpImm 0b101#3 rd rs1 (0b0100000#7 ++ shamt) = some (.srai rd rs1 shamt) := by
  simp [selectOpImm]

end

/-- Settles O2: by the constructors. Each one's sub-code selects it again, and a well-formed offset comes back whole. -/
theorem decodeOfEncode : Obligations.DecodeOfEncode := by
  intro i hwf
  cases i with
  | lui => exact decode_encodeU_lui
  | auipc => exact decode_encodeU_auipc
  | jal => exact decode_encodeJ_jal hwf
  | jalr => exact decode_encodeI_jalr
  | beq | bne | blt | bge | bltu | bgeu => exact decode_encodeB_branch hwf rfl
  | lb | lh | lw | lbu | lhu => exact decode_encodeI_load rfl
  | sb | sh | sw => exact decode_encodeS_store rfl
  | addi | slti | sltiu | xori | ori | andi => exact decode_encodeI_opImm rfl
  | slli => exact decode_encodeI_opImm (selectOpImm_slli ..)
  | srli => exact decode_encodeI_opImm (selectOpImm_srli ..)
  | srai => exact decode_encodeI_opImm (selectOpImm_srai ..)
  | add | sub | sll | slt | sltu | xor | srl | sra | or | and => exact decode_encodeR_op rfl

end Sys2Proof
end

section
/-! PROOFS. Encoding is the inverse of decoding up to the bits an encoding leaves open (30_encoding.md section 5, D15). A word
that decodes is put together from its own fields, and the selection that answered the instruction has fixed the sub-codes; only
the open bits can differ from the encoder's. -/

namespace Sys2Proof

open Sys2Proof.Machine Sys2Proof.Claims

/-! ### What is decoded is well-formed (R72, R74) -/

/-- Offsets come from the detangler, which puts 0 in bit 0, and no other operand can be ill-formed. -/
theorem wellFormed_of_decode {w : Word} {i : Instr} (h : decode w = .ok i) : i.wellFormed = true := by
  obtain ⟨o, -, hselect⟩ := (decode_eq_ok_iff w i).1 h
  have hJ : (!(immJ w).getLsbD 0) = true := by rw [immJ_bit0]; rfl
  have hB : (!(immB w).getLsbD 0) = true := by rw [immB_bit0]; rfl
  cases o with
  | lui | auipc | jalr => cases hselect; rfl
  | jal => cases hselect; exact hJ
  | branch =>
    simp only [recordOf, selectInstr, selectBranch] at hselect
    split_ifs at hselect <;> (cases hselect; exact hB)
  | load | store | opImm | op =>
    simp only [recordOf, selectInstr, selectLoad, selectStore, selectOpImm, selectOp, selectOpPlain] at hselect
    split_ifs at hselect <;> (cases hselect; rfl)

/-! ### Words that agree outside the open bits -/

/-- The two words agree in every bit but those that the encoding of `i` leaves open. -/
def AgreeOutsideOpenBits (i : Instr) (w v : Word) : Prop := w &&& ~~~(openBits i) = v &&& ~~~(openBits i)

theorem AgreeOutsideOpenBits.of_eq {i : Instr} {w v : Word} (h : w = v) : AgreeOutsideOpenBits i w v :=
  congrArg (· &&& _) h

section
variable (imm12 : BitVec 12) (rs1 rs2 rd : RegIdx) (f3 g3 : BitVec 3) (o : BitVec 7)

/-! The complement of the open bits is itself a word of the format, all ones but in the open bits of funct3. -/

/-- funct3 of an I-format word is masked out with the bits JALR leaves open (D15). -/
theorem encodeI_and_not_funct3 :
    encodeI imm12 rs1 f3 rd o &&& ~~~0x00007000#32 = encodeI imm12 rs1 g3 rd o &&& ~~~0x00007000#32 := by
  have hmask : ~~~0x00007000#32 = encodeI 0xFFF#12 31#5 0#3 31#5 0x7F#7 := by decide
  rw [hmask]; unfold encodeI; repeat rw [BitVec.and_append]
  rw [BitVec.and_zero, BitVec.and_zero]

/-- funct3[2] of an I-format word is masked out with the bit LW leaves open (R82). -/
theorem encodeI_and_not_funct3_2 (h : f3 &&& 3#3 = g3 &&& 3#3) :
    encodeI imm12 rs1 f3 rd o &&& ~~~0x00004000#32 = encodeI imm12 rs1 g3 rd o &&& ~~~0x00004000#32 := by
  have hmask : ~~~0x00004000#32 = encodeI 0xFFF#12 31#5 3#3 31#5 0x7F#7 := by decide
  rw [hmask]; unfold encodeI; repeat rw [BitVec.and_append]
  rw [h]

/-- funct3[2] of an S-format word is masked out with the bit SB, SH and SW leave open (R83). -/
theorem encodeS_and_not_funct3_2 (h : f3 &&& 3#3 = g3 &&& 3#3) :
    encodeS imm12 rs2 rs1 f3 o &&& ~~~0x00004000#32 = encodeS imm12 rs2 rs1 g3 o &&& ~~~0x00004000#32 := by
  have hmask : ~~~0x00004000#32 = encodeS 0xFFF#12 31#5 31#5 3#3 0x7F#7 := by decide
  rw [hmask]; unfold encodeS; repeat rw [BitVec.and_append]
  rw [h]

end

/-! ### Each selection fixes the sub-codes it reads -/

/-- The eight values of funct3. -/
theorem funct3_cases (f3 : BitVec 3) :
    f3 = 0#3 ∨ f3 = 1#3 ∨ f3 = 2#3 ∨ f3 = 3#3 ∨ f3 = 4#3 ∨ f3 = 5#3 ∨ f3 = 6#3 ∨ f3 = 7#3 := by
  revert f3; decide

section
variable {i : Instr} {rd rs1 rs2 : RegIdx} {f3 : BitVec 3} {f7 : BitVec 7} {imm12 : BitVec 12} {imm13 : BitVec 13}

theorem encode_of_selectBranch (h : selectBranch f3 rs1 rs2 imm13 = some i) :
    encodeB imm13 rs2 rs1 f3 Opcode.branch.bits = encode i := by
  unfold selectBranch at h
  split_ifs at h <;> (cases h; subst f3; rfl)

theorem encode_of_selectLoad (h : selectLoad f3 rd rs1 imm12 = some i) :
    AgreeOutsideOpenBits i (encodeI imm12 rs1 f3 rd Opcode.load.bits) (encode i) := by
  unfold selectLoad at h
  split_ifs at h with h0 h1 hword h4 h5
  · cases h; subst f3; rfl
  · cases h; subst f3; rfl
  · cases h
    have hwidth : f3 &&& 3#3 = 2#3 &&& 3#3 := by obtain rfl | rfl := hword <;> rfl
    exact encodeI_and_not_funct3_2 _ _ _ _ _ _ hwidth
  · cases h; subst f3; rfl
  · cases h; subst f3; rfl

theorem encode_of_selectStore (h : selectStore f3 rs1 rs2 imm12 = some i) :
    AgreeOutsideOpenBits i (encodeS imm12 rs2 rs1 f3 Opcode.store.bits) (encode i) := by
  unfold selectStore at h
  split_ifs at h with hwidth hwidth hwidth <;>
    (cases h; exact encodeS_and_not_funct3_2 _ _ _ _ _ _ (by obtain rfl | rfl := hwidth <;> rfl))

/-- The immediate of a selected shift is its checked field and its amount put together (R120). -/
theorem encodeI_shift {check : BitVec 7} (h : shiftCheckOf imm12 = check) :
    encodeI imm12 rs1 f3 rd Opcode.opImm.bits = encodeI (check ++ shamtOf imm12) rs1 f3 rd Opcode.opImm.bits := by
  rw [← h, ← immI_eq_append]

theorem encode_of_selectOpImm (h : selectOpImm f3 rd rs1 imm12 = some i) :
    encodeI imm12 rs1 f3 rd Opcode.opImm.bits = encode i := by
  unfold selectOpImm at h
  split_ifs at h with h0 h1 hcheck h2 h3 h4 h5 hcheck hcheck h6
  · cases h; subst f3; rfl
  · cases h; subst f3; exact encodeI_shift hcheck
  · cases h; subst f3; rfl
  · cases h; subst f3; rfl
  · cases h; subst f3; rfl
  · cases h; subst f3; exact encodeI_shift hcheck
  · cases h; subst f3; exact encodeI_shift hcheck
  · cases h; subst f3; rfl
  · cases h
    have h7 : f3 = 7#3 := by have := funct3_cases f3; tauto
    subst f3; rfl

theorem encode_of_selectOp (h : selectOp f3 f7 rd rs1 rs2 = some i) :
    encodeR f7 rs2 rs1 f3 rd Opcode.op.bits = encode i := by
  unfold selectOp at h
  split_ifs at h with hplain hsub hsra
  · cases h; subst f7
    obtain rfl | rfl | rfl | rfl | rfl | rfl | rfl | rfl := funct3_cases f3 <;> rfl
  · cases h; obtain ⟨rfl, rfl⟩ := hsub; rfl
  · cases h; obtain ⟨rfl, rfl⟩ := hsra; rfl

end

/-- A word is its instruction's encoding up to the open bits: it is put together from the fields of its record. -/
theorem agreeOutsideOpenBits_of_decode {w : Word} {i : Instr} (h : decode w = .ok i) :
    AgreeOutsideOpenBits i w (encode i) := by
  obtain ⟨o, ho, hselect⟩ := (decode_eq_ok_iff w i).1 h
  have hbits : o.bits = opcodeField w := Opcode.bits_of_ofBits ho
  cases o with
  | lui | auipc =>
    cases hselect
    rw [immU_31_12]
    exact .of_eq ((encodeU_fields w).symm.trans (congrArg _ hbits.symm))
  | jal => cases hselect; exact .of_eq ((encodeJ_fields w).symm.trans (congrArg _ hbits.symm))
  | jalr =>
    cases hselect
    have hw : w = encodeI (immI w) (rs1Field w) (funct3Field w) (rdField w) Opcode.jalr.bits := by
      rw [hbits, encodeI_fields]
    exact Eq.trans (AgreeOutsideOpenBits.of_eq hw) (encodeI_and_not_funct3 ..)
  | branch => exact .of_eq (by rw [← encode_of_selectBranch hselect, hbits, encodeB_fields])
  | load =>
    have := encode_of_selectLoad hselect
    rwa [hbits, encodeI_fields] at this
  | store =>
    have := encode_of_selectStore hselect
    rwa [hbits, encodeS_fields] at this
  | opImm => exact .of_eq (by rw [← encode_of_selectOpImm hselect, hbits, encodeI_fields])
  | op => exact .of_eq (by rw [← encode_of_selectOp hselect, hbits, encodeR_fields])

/-- Settles O3: the two halves, well-formed operands and the agreement outside the open bits. -/
theorem encodeOfDecode : Obligations.EncodeOfDecode := fun _ _ h =>
  ⟨wellFormed_of_decode h, agreeOutsideOpenBits_of_decode h⟩

end Sys2Proof
end

section
/-! PROOFS. The illegal encodings (30_encoding.md section 5, R79; D9, D10, D12, D13). Each opcode's selection answers `none` on
some values of funct3 and funct7; read as numbers, these are the rows of the spec's table. -/

namespace Sys2Proof

open Sys2Proof.Machine Sys2Proof.Claims

/-! ### The sub-codes as numbers (R61) -/

theorem funct3Field_toNat (w : Word) : (funct3Field w).toNat = w.toNat / 2 ^ 12 % 8 :=
  toNat_field w 12 3

theorem funct7Field_toNat (w : Word) : (funct7Field w).toNat = w.toNat / 2 ^ 25 :=
  toNat_top_field w rfl

/-! ### The sub-codes that select nothing -/

theorem ite_some_eq_none_iff {p : Prop} [Decidable p] {i : Instr} {o : Option Instr} :
    (if p then some i else o) = none ↔ ¬p ∧ o = none := by
  by_cases hp : p <;> simp [hp]

section
variable (f3 : BitVec 3) (f7 : BitVec 7) (rd rs1 rs2 : RegIdx) (imm12 : BitVec 12) (imm13 : BitVec 13)

theorem selectBranch_eq_none_iff : selectBranch f3 rs1 rs2 imm13 = none ↔ f3.toNat = 2 ∨ f3.toNat = 3 := by
  obtain rfl | rfl | rfl | rfl | rfl | rfl | rfl | rfl := funct3_cases f3 <;> simp [selectBranch]

theorem selectLoad_eq_none_iff : selectLoad f3 rd rs1 imm12 = none ↔ f3.toNat = 3 ∨ f3.toNat = 7 := by
  obtain rfl | rfl | rfl | rfl | rfl | rfl | rfl | rfl := funct3_cases f3 <;> simp [selectLoad]

theorem selectStore_eq_none_iff : selectStore f3 rs1 rs2 imm12 = none ↔ f3.toNat = 3 ∨ f3.toNat = 7 := by
  obtain rfl | rfl | rfl | rfl | rfl | rfl | rfl | rfl := funct3_cases f3 <;> simp [selectStore]

theorem selectOpImm_eq_none_iff : selectOpImm f3 rd rs1 imm12 = none ↔
    (f3.toNat = 1 ∧ (shiftCheckOf imm12).toNat ≠ 0) ∨
    (f3.toNat = 5 ∧ (shiftCheckOf imm12).toNat ≠ 0 ∧ (shiftCheckOf imm12).toNat ≠ 0x20) := by
  obtain rfl | rfl | rfl | rfl | rfl | rfl | rfl | rfl := funct3_cases f3 <;>
    simp [selectOpImm, ite_some_eq_none_iff, ← BitVec.toNat_inj]

theorem selectOp_eq_none_iff : selectOp f3 f7 rd rs1 rs2 = none ↔
    ((f3.toNat = 0 ∨ f3.toNat = 5) ∧ f7.toNat ≠ 0 ∧ f7.toNat ≠ 0x20) ∨
    (f3.toNat ≠ 0 ∧ f3.toNat ≠ 5 ∧ f7.toNat ≠ 0) := by
  obtain rfl | rfl | rfl | rfl | rfl | rfl | rfl | rfl := funct3_cases f3 <;>
    simp [selectOp, ite_some_eq_none_iff, ← BitVec.toNat_inj]

end

/-! ### The table of R79 -/

/-- Sub-codes of the word's opcode that select nothing make it illegal (R79). -/
theorem decode_eq_illegal_of_opcode {w : Word} (o : Opcode) (hopcode : w.toNat % 128 = o.bits.toNat)
    (hselect : selectInstr (recordOf w o) = none) : decode w = .error .illegalEncoding := by
  have hbits : opcodeField w = o.bits := (opcodeField_eq_bits_iff w o).2 hopcode
  exact (decode_eq_illegal_iff w).2 ⟨o, by rw [hbits, Opcode.ofBits_bits], hselect⟩

/-- The sub-codes of an OP-IMM word that select nothing: the checked field is the word's funct7 (R120). -/
theorem selectInstr_opImm_eq_none_iff (w : Word) : selectInstr (recordOf w .opImm) = none ↔
    (w.toNat / 2 ^ 12 % 8 = 1 ∧ w.toNat / 2 ^ 25 ≠ 0) ∨
    (w.toNat / 2 ^ 12 % 8 = 5 ∧ w.toNat / 2 ^ 25 ≠ 0 ∧ w.toNat / 2 ^ 25 ≠ 0x20) := by
  rw [recordOf, selectInstr, selectOpImm_eq_none_iff, shiftCheckOf_immI, funct3Field_toNat, funct7Field_toNat]

/-- The sub-codes of an OP word that select nothing (R100). -/
theorem selectInstr_op_eq_none_iff (w : Word) : selectInstr (recordOf w .op) = none ↔
    ((w.toNat / 2 ^ 12 % 8 = 0 ∨ w.toNat / 2 ^ 12 % 8 = 5) ∧ w.toNat / 2 ^ 25 ≠ 0 ∧ w.toNat / 2 ^ 25 ≠ 0x20) ∨
    (w.toNat / 2 ^ 12 % 8 ≠ 0 ∧ w.toNat / 2 ^ 12 % 8 ≠ 5 ∧ w.toNat / 2 ^ 25 ≠ 0) := by
  rw [recordOf, selectInstr, selectOp_eq_none_iff, funct3Field_toNat, funct7Field_toNat]

theorem selectInstr_branch_eq_none_iff (w : Word) : selectInstr (recordOf w .branch) = none ↔
    w.toNat / 2 ^ 12 % 8 = 2 ∨ w.toNat / 2 ^ 12 % 8 = 3 := by
  rw [recordOf, selectInstr, selectBranch_eq_none_iff, funct3Field_toNat]

theorem selectInstr_load_eq_none_iff (w : Word) : selectInstr (recordOf w .load) = none ↔
    w.toNat / 2 ^ 12 % 8 = 3 ∨ w.toNat / 2 ^ 12 % 8 = 7 := by
  rw [recordOf, selectInstr, selectLoad_eq_none_iff, funct3Field_toNat]

theorem selectInstr_store_eq_none_iff (w : Word) : selectInstr (recordOf w .store) = none ↔
    w.toNat / 2 ^ 12 % 8 = 3 ∨ w.toNat / 2 ^ 12 % 8 = 7 := by
  rw [recordOf, selectInstr, selectStore_eq_none_iff, funct3Field_toNat]

/-- `IllegalEncoding` exactly on the words of the table, opcode by opcode (R79). -/
theorem decode_eq_illegal_iff_illegalWord (w : Word) : decode w = .error .illegalEncoding ↔ IllegalWord w := by
  constructor
  · intro h
    obtain ⟨o, ho, hselect⟩ := (decode_eq_illegal_iff w).1 h
    have hopcode : w.toNat % 128 = o.bits.toNat := (opcodeField_eq_bits_iff w o).1 (Opcode.bits_of_ofBits ho).symm
    cases o with
    | lui | auipc | jal | jalr => cases hselect
    | branch => exact .inl ⟨hopcode, (selectInstr_branch_eq_none_iff w).1 hselect⟩
    | load => exact .inr (.inl ⟨hopcode, (selectInstr_load_eq_none_iff w).1 hselect⟩)
    | store => exact .inr (.inr (.inl ⟨hopcode, (selectInstr_store_eq_none_iff w).1 hselect⟩))
    | opImm =>
      obtain hleft | hright := (selectInstr_opImm_eq_none_iff w).1 hselect
      · exact .inr (.inr (.inr (.inl ⟨hopcode, hleft⟩)))
      · exact .inr (.inr (.inr (.inr (.inl ⟨hopcode, hright⟩))))
    | op =>
      obtain hmath | hplain := (selectInstr_op_eq_none_iff w).1 hselect
      · exact .inr (.inr (.inr (.inr (.inr (.inl ⟨hopcode, hmath⟩)))))
      · exact .inr (.inr (.inr (.inr (.inr (.inr ⟨hopcode, hplain⟩)))))
  · rintro (⟨hop, h⟩ | ⟨hop, h⟩ | ⟨hop, h⟩ | ⟨hop, h⟩ | ⟨hop, h⟩ | ⟨hop, h⟩ | ⟨hop, h⟩)
    · exact decode_eq_illegal_of_opcode .branch hop ((selectInstr_branch_eq_none_iff w).2 h)
    · exact decode_eq_illegal_of_opcode .load hop ((selectInstr_load_eq_none_iff w).2 h)
    · exact decode_eq_illegal_of_opcode .store hop ((selectInstr_store_eq_none_iff w).2 h)
    · exact decode_eq_illegal_of_opcode .opImm hop ((selectInstr_opImm_eq_none_iff w).2 (.inl h))
    · exact decode_eq_illegal_of_opcode .opImm hop ((selectInstr_opImm_eq_none_iff w).2 (.inr h))
    · exact decode_eq_illegal_of_opcode .op hop ((selectInstr_op_eq_none_iff w).2 (.inl h))
    · exact decode_eq_illegal_of_opcode .op hop ((selectInstr_op_eq_none_iff w).2 (.inr h))

/-! ### The step -/

/-- Fetch and decode raise `IllegalEncoding` on the fetched word, with the pc and that word as its fields (R94). -/
theorem fetchInstr_eq_illegalEncoding_iff (s : State) (ipc v : Word) :
    fetchInstr s = .error (.illegalEncoding ipc v) ↔
      ipc = s.pc ∧ fetchWord s = some v ∧ decode v = .error .illegalEncoding := by
  rw [fetchInstr_eq_error_iff]
  constructor
  · rintro (⟨-, h⟩ | ⟨w, -, -, h⟩ | ⟨w, hw, hd, h⟩)
    · cases h
    · cases h
    · cases h; exact ⟨rfl, hw, hd⟩
  · rintro ⟨rfl, hw, hd⟩
    exact .inr (.inr ⟨v, hw, hd, rfl⟩)

/-- The step's `IllegalEncoding`: the pc and a fetched word of the table, before any address is used (R203, R208). -/
theorem step_eq_illegalEncoding_iff {s : State} (hc : ConfigValid s.config) (ipc v : Word) :
    step s = .fault (.illegalEncoding ipc v) ↔ ipc = s.pc ∧ fetchWord s = some v ∧ IllegalWord v := by
  rw [step_eq_fault_iff_fetchInstr hc (fun _ _ _ => Fault.noConfusion), fetchInstr_eq_illegalEncoding_iff,
    decode_eq_illegal_iff_illegalWord]

/-- Settles O6: the table decides `decode`, and the step raises the error with the pc and the fetched word. -/
theorem illegalEncodingExactly : Obligations.IllegalEncodingExactly :=
  ⟨decode_eq_illegal_iff_illegalWord, fun s hc => by
    simp only [step_eq_illegalEncoding_iff hc, exists_and_left, exists_eq_left]⟩

/-- Settles O31: an opcode of the list is none of the nine, a compressed parcel's low two bits rule each of the nine out, and
an M-extension word has funct7 1, which no funct3 of OP allows (D9). -/
theorem systemAndExtensionWords : Obligations.SystemAndExtensionWords := by
  intro s w hc hw
  refine ⟨fun habsent => ?unsupported, fun hopcode hfunct7 => ?illegal⟩
  case unsupported =>
    have hnone : w.toNat % 128 ∉ supportedOpcodes := by
      simp only [List.mem_cons, List.not_mem_nil, or_false, supportedOpcodes] at habsent ⊢
      omega
    exact (step_eq_unsupportedOpcode_iff hc s.pc w).2 ⟨rfl, hw, hnone⟩
  case illegal =>
    have hillegal : IllegalWord w := by
      simp only [IllegalWord]
      omega
    exact (step_eq_illegalEncoding_iff hc s.pc w).2 ⟨rfl, hw, hillegal⟩

end Sys2Proof
end

section
/-! PROOFS. The remaining ALU instructions and JALR (41_alu_register.md, 42_alu_immediate.md, 45_control_transfer.md section 2). How
a word's sub-codes decide its instruction, and which sub-codes are illegal, are said once for an opcode; an instruction adds its
result as a number modulo 2^32. -/

namespace Sys2Proof

open Sys2Proof.Machine Sys2Proof.Claims

/-! ### The words of OP and of the immediate shifts (R100, R120) -/

/-- An OP word whose funct3 and funct7 select `c` is `c` of its R-format operands. -/
theorem encodes_of_selectOp {value : Word} {c : RegIdx → RegIdx → RegIdx → Instr}
    (hopcode : value.extractLsb' 0 7 = Opcode.op.bits)
    (hselect : ∀ rd rs1 rs2,
      selectOp (value.extractLsb' 12 3) (value.extractLsb' 25 7) rd rs1 rs2 = some (c rd rs1 rs2)) :
    Encodes 0xFE00707F#32 value (rType c) := by
  refine encodes_of_selectInstr .op (by decide) hopcode fun w hw => ?_
  have hfunct3 : funct3Field w = value.extractLsb' 12 3 := funct3Field_of_mask hw
  have hfunct7 : funct7Field w = value.extractLsb' 25 7 := funct7Field_of_mask hw
  rw [recordOf, selectInstr, hfunct3, hfunct7, hselect]
  rfl

/-- An OP-IMM word whose funct3 and `word[31:25]` select the shift `c`: the shift amount is what is left of the immediate. -/
theorem encodes_of_selectOpImm_shift {value : Word} {c : RegIdx → RegIdx → BitVec 5 → Instr}
    (hopcode : value.extractLsb' 0 7 = Opcode.opImm.bits)
    (hselect : ∀ rd rs1 shamt,
      selectOpImm (value.extractLsb' 12 3) rd rs1 (value.extractLsb' 25 7 ++ shamt) = some (c rd rs1 shamt)) :
    Encodes 0xFE00707F#32 value (shiftType c) := by
  refine encodes_of_selectInstr .opImm (by decide) hopcode fun w hw => ?_
  have hfunct3 : funct3Field w = value.extractLsb' 12 3 := funct3Field_of_mask hw
  have hfunct7 : funct7Field w = value.extractLsb' 25 7 := funct7Field_of_mask hw
  have himm : immI w = value.extractLsb' 25 7 ++ w.extractLsb' 20 5 := by
    rw [immI_eq_append (immI w), shiftCheckOf_immI, hfunct7, shamtOf_immI]
  rw [recordOf, selectInstr, hfunct3, himm, hselect]
  rfl

/-! ### The illegal sub-codes (D9, D10) -/

/-- funct3 of ADD and SUB, and of SRL and SRA, allows two values of funct7. -/
theorem opIllegal_of_mathBit {funct3 : Nat} (h : funct3 = 0 ∨ funct3 = 5) : OpIllegal funct3 [0, 0x20] := by
  rintro w hopcode rfl hfunct7
  simp only [List.mem_cons, List.not_mem_nil, or_false, not_or] at hfunct7
  exact (decode_eq_illegal_iff_illegalWord w).2 (.inr (.inr (.inr (.inr (.inr (.inl ⟨hopcode, h, hfunct7⟩))))))

/-- Every other funct3 of OP allows funct7 0 only. -/
theorem opIllegal_of_plain {funct3 : Nat} (h0 : funct3 ≠ 0) (h5 : funct3 ≠ 5) : OpIllegal funct3 [0] := by
  rintro w hopcode rfl hfunct7
  rw [List.mem_singleton] at hfunct7
  exact (decode_eq_illegal_iff_illegalWord w).2 (.inr (.inr (.inr (.inr (.inr (.inr ⟨hopcode, h0, h5, hfunct7⟩))))))

/-- SLLI allows `word[31:25]` 0 only. -/
theorem opImmIllegal_left : OpImmIllegal 1 [0] := by
  intro w hopcode hfunct3 hcheck
  rw [List.mem_singleton] at hcheck
  exact (decode_eq_illegal_iff_illegalWord w).2 (.inr (.inr (.inr (.inl ⟨hopcode, hfunct3, hcheck⟩))))

/-- SRLI and SRAI allow two values of `word[31:25]`. -/
theorem opImmIllegal_right : OpImmIllegal 5 [0, 0x20] := by
  intro w hopcode hfunct3 hcheck
  simp only [List.mem_cons, List.not_mem_nil, or_false, not_or] at hcheck
  exact (decode_eq_illegal_iff_illegalWord w).2 (.inr (.inr (.inr (.inr (.inl ⟨hopcode, hfunct3, hcheck⟩)))))

/-! ### Register-register instructions -/

/-- Settles O9: the sum and the difference as numbers. -/
theorem addAndSub : Obligations.AddAndSub := by
  refine ⟨encodes_of_selectOp rfl fun _ _ _ => rfl, encodes_of_selectOp rfl fun _ _ _ => rfl,
    opIllegal_of_mathBit (.inl rfl), fun rd rs1 rs2 s => ?_⟩
  rw [← add_eq_ofNat, ← sub_eq_ofInt]
  exact ⟨writes_of_exec (exec_add ..), writes_of_exec (exec_sub ..)⟩

/-- Settles O10: a shift is a product or a rounded-down quotient by a power of 2, and the amount is the value modulo 32. -/
theorem registerShifts : Obligations.RegisterShifts := by
  refine ⟨encodes_of_selectOp rfl fun _ _ _ => rfl, encodes_of_selectOp rfl fun _ _ _ => rfl,
    encodes_of_selectOp rfl fun _ _ _ => rfl, opIllegal_of_plain (by decide) (by decide),
    opIllegal_of_mathBit (.inr rfl), fun rd rs1 rs2 s => ?_⟩
  rw [← shiftAmount_eq, ← shiftLeft_eq_ofNat, ← shiftRight_eq_ofNat, ← sshiftRight_eq_ofInt]
  exact ⟨writes_of_exec (exec_sll ..), writes_of_exec (exec_srl ..), writes_of_exec (exec_sra ..)⟩

/-- Settles O11: the two comparisons as orders of the signed and of the unsigned readings. -/
theorem registerCompares : Obligations.RegisterCompares := by
  refine ⟨encodes_of_selectOp rfl fun _ _ _ => rfl, encodes_of_selectOp rfl fun _ _ _ => rfl,
    opIllegal_of_plain (by decide) (by decide), opIllegal_of_plain (by decide) (by decide), fun rd rs1 rs2 s => ?_⟩
  rw [← boolWord_lessSigned, ← boolWord_lessUnsigned]
  exact ⟨writes_of_exec (exec_slt ..), writes_of_exec (exec_sltu ..)⟩

/-- Settles O12: the three bitwise results. -/
theorem registerLogic : Obligations.RegisterLogic :=
  ⟨encodes_of_selectOp rfl fun _ _ _ => rfl, encodes_of_selectOp rfl fun _ _ _ => rfl,
   encodes_of_selectOp rfl fun _ _ _ => rfl, opIllegal_of_plain (by decide) (by decide),
   opIllegal_of_plain (by decide) (by decide), opIllegal_of_plain (by decide) (by decide),
   fun _ _ _ _ => ⟨writes_of_exec (exec_xor ..), writes_of_exec (exec_or ..), writes_of_exec (exec_and ..)⟩⟩

/-! ### Register-immediate instructions -/

/-- R121: the sum with the sign-extended immediate, as a number modulo 2^32. -/
theorem add_sext12_eq_ofInt (a : Word) (imm12 : BitVec 12) :
    a + sext12 imm12 = BitVec.ofInt 32 (a.toNat + imm12.toInt) :=
  add_signExtend a imm12 (by decide)

/-- Settles O13: funct3 alone names ADDI, and its result is the sum as a number. -/
theorem addImmediate : Obligations.AddImmediate := by
  refine ⟨encodes_of_selectOpImm rfl fun _ _ _ => rfl, fun rd rs1 imm12 s => ?_⟩
  rw [← add_sext12_eq_ofInt]
  exact writes_of_exec (exec_addi ..)

/-- Settles O16: the register shifts' results with the amount from the immediate. -/
theorem immediateShifts : Obligations.ImmediateShifts := by
  refine ⟨encodes_of_selectOpImm_shift rfl selectOpImm_slli, encodes_of_selectOpImm_shift rfl selectOpImm_srli,
    encodes_of_selectOpImm_shift rfl selectOpImm_srai, opImmIllegal_left, opImmIllegal_right,
    fun rd rs1 shamt s => ?_⟩
  rw [← shiftLeft_eq_ofNat, ← shiftRight_eq_ofNat, ← sshiftRight_eq_ofInt]
  exact ⟨writes_of_exec (exec_slli ..), writes_of_exec (exec_srli ..), writes_of_exec (exec_srai ..)⟩

/-! ### JALR -/

/-- JALR's target is the sum with its bit 0 cleared, as a number (R179). -/
theorem jalrTarget_eq (s : State) (rs1 : RegIdx) (imm12 : BitVec 12) :
    jalrTarget s rs1 imm12 =
      BitVec.ofNat 32 (2 * ((BitVec.ofInt 32 ((readReg s rs1).toNat + imm12.toInt) : Word).toNat / 2)) := by
  rw [jalrTarget, add_sext12_eq_ofInt, and_clear_bit0]

/-- Settles O26: JALR's opcode alone names it, and its target reads `x[rs1]` in the state before the link is written. -/
theorem jumpAndLinkRegister : Obligations.JumpAndLinkRegister := by
  refine ⟨encodes_of_selectInstr .jalr (by decide) rfl fun _ _ => rfl, fun rd rs1 imm12 s => ?_⟩
  dsimp only
  rw [← nextPc_eq, ← jalrTarget_eq]
  exact writes_of_exec (exec_jalr ..)

end Sys2Proof
end

section
/-! PROOFS. The table of the 37 instructions (30_encoding.md R89). The statements of the families say row by row that every word of
a row decodes to the row's instruction; with the agreement of a decoded word and its encoding, the table decides decoding. -/

namespace Sys2Proof

open Sys2Proof.Machine Sys2Proof.Claims

/-! ### A decoded word matches its instruction's row -/

theorem row_mem_opcodeTable (i : Instr) : i.row ∈ opcodeTable := by
  cases i <;> exact List.elem_iff.1 rfl

/-- Open bits are left by JALR and by the four rows that mask two bits of funct3 only. -/
theorem openBits_cases (i : Instr) :
    openBits i = 0#32 ∨ (openBits i = 0x00004000#32 ∧ i.row.mask = 0x0000307F#32) ∨
      (openBits i = 0x00007000#32 ∧ i.row.mask = 0x0000007F#32) := by
  cases i with
  | jalr => exact .inr (.inr ⟨rfl, rfl⟩)
  | lw | sb | sh | sw => exact .inr (.inl ⟨rfl, rfl⟩)
  | _ => exact .inl rfl

/-- A row's mask keeps none of the bits the encoding leaves open. -/
theorem not_openBits_and_rowMask (i : Instr) : ~~~(openBits i) &&& i.row.mask = i.row.mask := by
  obtain hopen | ⟨hopen, hmask⟩ | ⟨hopen, hmask⟩ := openBits_cases i
  · rw [hopen, BitVec.not_zero, BitVec.allOnes_and]
  · rw [hopen, hmask]; decide
  · rw [hopen, hmask]; decide

/-- Every instruction's encoding matches its row. -/
theorem rowMatches_encode (i : Instr) : i.row.Matches (encode i) := by
  open Sys2Proof.Laws.RowOfEncoding in
  cases i
  exacts [lui .., auipc .., jal .., jalr .., beq .., bne .., blt .., bge .., bltu .., bgeu .., lb .., lh .., lw .., lbu ..,
    lhu .., sb .., sh .., sw .., addi .., slti .., sltiu .., xori .., ori .., andi .., slli .., srli .., srai .., add ..,
    sub .., sll .., slt .., sltu .., xor .., srl .., sra .., or .., and ..]

/-- A word that agrees with the encoding outside the open bits matches the row too. -/
theorem rowMatches_of_decode {w : Word} {i : Instr} (h : decode w = .ok i) : i.row.Matches w := by
  have hagree : w &&& ~~~(openBits i) = encode i &&& ~~~(openBits i) := agreeOutsideOpenBits_of_decode h
  calc w &&& i.row.mask
      = (w &&& ~~~(openBits i)) &&& i.row.mask := by rw [BitVec.and_assoc, not_openBits_and_rowMask]
    _ = (encode i &&& ~~~(openBits i)) &&& i.row.mask := by rw [hagree]
    _ = encode i &&& i.row.mask := by rw [BitVec.and_assoc, not_openBits_and_rowMask]
    _ = i.row.value := rowMatches_encode i

/-! ### A word that matches a row decodes to an instruction of the row -/

/-- Every word of the row decodes to an instruction whose row it is. -/
def RowDecodes (row : TableRow) : Prop := ∀ w : Word, row.Matches w → ∃ i, decode w = .ok i ∧ i.row = row

theorem RowDecodes.of_encodes {mask value : Word} {f : Word → Instr} (h : Encodes mask value f)
    (hrow : ∀ w, (f w).row = ⟨mask, value⟩) : RowDecodes ⟨mask, value⟩ :=
  fun w hw => ⟨f w, h w hw, hrow w⟩

theorem rowDecodes_upperAndJumps : ∀ row ∈ tableUpperAndJumps, RowDecodes row := by
  obtain ⟨hlui, hauipc, -⟩ := upperImmediates
  obtain ⟨hjal, -⟩ := jumpAndLink
  obtain ⟨hjalr, -⟩ := jumpAndLinkRegister
  simp only [tableUpperAndJumps, List.forall_mem_cons]
  exact ⟨.of_encodes hlui fun _ => rfl, .of_encodes hauipc fun _ => rfl, .of_encodes hjal fun _ => rfl,
    .of_encodes hjalr fun _ => rfl, List.forall_mem_nil _⟩

theorem rowDecodes_branches : ∀ row ∈ tableBranches, RowDecodes row := by
  obtain ⟨hbeq, hbne, -⟩ := equalityBranches
  obtain ⟨hblt, hbge, -⟩ := signedBranches
  obtain ⟨hbltu, hbgeu, -⟩ := unsignedBranches
  simp only [tableBranches, List.forall_mem_cons]
  exact ⟨.of_encodes hbeq fun _ => rfl, .of_encodes hbne fun _ => rfl, .of_encodes hblt fun _ => rfl,
    .of_encodes hbge fun _ => rfl, .of_encodes hbltu fun _ => rfl, .of_encodes hbgeu fun _ => rfl, List.forall_mem_nil _⟩

theorem rowDecodes_loadsAndStores : ∀ row ∈ tableLoadsAndStores, RowDecodes row := by
  obtain ⟨hlb, hlh, -⟩ := signedLoads
  obtain ⟨hlw, -⟩ := loadWord
  obtain ⟨hlbu, hlhu, -⟩ := unsignedLoads
  obtain ⟨hsb, hsh, hsw, -⟩ := storesOfEachWidth
  simp only [tableLoadsAndStores, List.forall_mem_cons]
  exact ⟨.of_encodes hlb fun _ => rfl, .of_encodes hlh fun _ => rfl, .of_encodes hlw fun _ => rfl,
    .of_encodes hlbu fun _ => rfl, .of_encodes hlhu fun _ => rfl, .of_encodes hsb fun _ => rfl,
    .of_encodes hsh fun _ => rfl, .of_encodes hsw fun _ => rfl, List.forall_mem_nil _⟩

theorem rowDecodes_aluImmediate : ∀ row ∈ tableAluImmediate, RowDecodes row := by
  obtain ⟨haddi, -⟩ := addImmediate
  obtain ⟨hslti, hsltiu, -⟩ := immediateCompares
  obtain ⟨hxori, hori, handi, -⟩ := immediateLogic
  obtain ⟨hslli, hsrli, hsrai, -⟩ := immediateShifts
  simp only [tableAluImmediate, List.forall_mem_cons]
  exact ⟨.of_encodes haddi fun _ => rfl, .of_encodes hslti fun _ => rfl, .of_encodes hsltiu fun _ => rfl,
    .of_encodes hxori fun _ => rfl, .of_encodes hori fun _ => rfl, .of_encodes handi fun _ => rfl,
    .of_encodes hslli fun _ => rfl, .of_encodes hsrli fun _ => rfl, .of_encodes hsrai fun _ => rfl,
    List.forall_mem_nil _⟩

theorem rowDecodes_aluRegister : ∀ row ∈ tableAluRegister, RowDecodes row := by
  obtain ⟨hadd, hsub, -⟩ := addAndSub
  obtain ⟨hsll, hsrl, hsra, -⟩ := registerShifts
  obtain ⟨hslt, hsltu, -⟩ := registerCompares
  obtain ⟨hxor, hor, hand, -⟩ := registerLogic
  simp only [tableAluRegister, List.forall_mem_cons]
  exact ⟨.of_encodes hadd fun _ => rfl, .of_encodes hsub fun _ => rfl, .of_encodes hsll fun _ => rfl,
    .of_encodes hslt fun _ => rfl, .of_encodes hsltu fun _ => rfl, .of_encodes hxor fun _ => rfl,
    .of_encodes hsrl fun _ => rfl, .of_encodes hsra fun _ => rfl, .of_encodes hor fun _ => rfl,
    .of_encodes hand fun _ => rfl, List.forall_mem_nil _⟩

theorem rowDecodes_opcodeTable : ∀ row ∈ opcodeTable, RowDecodes row := by
  simp only [opcodeTable, List.forall_mem_append]
  exact ⟨⟨⟨⟨rowDecodes_upperAndJumps, rowDecodes_branches⟩, rowDecodes_loadsAndStores⟩, rowDecodes_aluImmediate⟩,
    rowDecodes_aluRegister⟩

/-! ### The table decides -/

/-- Two matching rows are the row of the one instruction the word decodes to. -/
theorem row_unique {w : Word} {r1 r2 : TableRow} (h1 : r1 ∈ opcodeTable) (h2 : r2 ∈ opcodeTable)
    (hw1 : r1.Matches w) (hw2 : r2.Matches w) : r1 = r2 := by
  obtain ⟨i, hi, rfl⟩ := rowDecodes_opcodeTable r1 h1 w hw1
  obtain ⟨j, hj, rfl⟩ := rowDecodes_opcodeTable r2 h2 w hw2
  rw [hi] at hj
  cases hj; rfl

/-- A supported opcode leaves two outcomes, and an instruction's row would match. -/
theorem decode_eq_illegal_of_no_row {w : Word} (hopcode : w.toNat % 128 ∈ supportedOpcodes)
    (hrows : ∀ row ∈ opcodeTable, w &&& row.mask ≠ row.value) : decode w = .error .illegalEncoding := by
  cases h : decode w with
  | ok i => exact absurd (rowMatches_of_decode h) (hrows _ (row_mem_opcodeTable i))
  | error e =>
    cases e with
    | unsupportedOpcode =>
      obtain ⟨hunsupported, -, -⟩ := unsupportedOpcodeExactly w
      exact absurd hopcode (hunsupported.1 h)
    | illegalEncoding => rfl
    | truncated => exact absurd h (decode_ne_truncated w)

/-- Settles O4: the four clauses, each a lemma above. -/
theorem tableDecidesTheInstruction : Obligations.TableDecidesTheInstruction :=
  ⟨fun _ i h => ⟨row_mem_opcodeTable i, rowMatches_of_decode h⟩,
   fun w row hrow => rowDecodes_opcodeTable row hrow w,
   fun _ _ _ => row_unique,
   fun _ => decode_eq_illegal_of_no_row⟩

/-- Settles O1: each word matches its instruction's mask, and its operands are read from its fields. -/
theorem decodesWordsOfTheSpec : Obligations.DecodesWordsOfTheSpec := by
  obtain ⟨hadd, hsub, -⟩ := addAndSub
  obtain ⟨haddi, -⟩ := addImmediate
  obtain ⟨-, -, hsrai, -⟩ := immediateShifts
  obtain ⟨hlw, -⟩ := loadWord
  obtain ⟨-, -, hsw, -⟩ := storesOfEachWidth
  obtain ⟨hlui, -⟩ := upperImmediates
  obtain ⟨hbeq, -⟩ := equalityBranches
  obtain ⟨hjal, -⟩ := jumpAndLink
  obtain ⟨hjalr, -⟩ := jumpAndLinkRegister
  exact ⟨hadd _ rfl, hsub _ rfl, haddi _ rfl, hsrai _ rfl, hlw _ rfl, hsw _ rfl, hlui _ rfl, hbeq _ rfl, hjal _ rfl,
    hjalr _ rfl⟩

end Sys2Proof
end

section
/-! PROOFS. What each instruction changes, tied to its own operands (40_execution_engine.md R95 to R97, R99; files 41 to 45): the
register it writes is its `destination`, the bytes it stores are those of `storedTo`, and its pc is `pcAfter`. -/

namespace Sys2Proof

open Sys2Proof.Machine Sys2Proof.Claims

/-! ### The frame (R95) -/

/-- A completed instruction writes its own `rd`, or moves the pc alone, or stores at its own address: never two of these. -/
theorem exec_next_frame {i : Instr} {s t : State} (h : exec i s = .next t) :
    (∃ rd v p, destination i = some rd ∧ storedTo i s = none ∧ t = setPc (writeReg s rd v) p) ∨
    (∃ p, destination i = none ∧ storedTo i s = none ∧ t = setPc s p) ∨
    (∃ a n v p, destination i = none ∧ storedTo i s = some (a, n) ∧
      t = setPc { s with mem := storeLE s.mem a.toNat v n } p) := by
  cases i with
  | lb | lh | lw | lbu | lhu =>
    obtain ⟨-, ht⟩ := loadWith_next h
    exact .inl ⟨_, _, _, rfl, rfl, ht⟩
  | sb | sh | sw =>
    obtain ⟨-, ht⟩ := storeWith_next h
    exact .inr (.inr ⟨_, _, _, _, rfl, rfl, ht⟩)
  | beq | bne | blt | bge | bltu | bgeu => cases h; exact .inr (.inl ⟨_, rfl, rfl, rfl⟩)
  | _ => cases h; exact .inl ⟨_, _, _, rfl, rfl, rfl⟩

/-- Settles O38: each of the three shapes leaves everything else as it was. -/
theorem oneWriteEachInstruction : Obligations.OneWriteEachInstruction := by
  intro i s t h
  obtain ⟨rd, v, p, hrd, hstore, rfl⟩ | ⟨p, hrd, hstore, rfl⟩ | ⟨a, n, v, p, hrd, hstore, rfl⟩ := exec_next_frame h
  · refine ⟨fun r hr => ?_, fun x _ => by simp, by simp, .inr hstore⟩
    have hne : r ≠ rd := fun e => hr (by rw [hrd, e])
    simp [hne]
  · exact ⟨fun _ _ => rfl, fun _ _ => rfl, rfl, .inl hrd⟩
  · refine ⟨fun _ _ => rfl, fun x hx => ?_, rfl, .inl hrd⟩
    have hout : x < a.toNat ∨ a.toNat + n ≤ x := hx a n hstore
    rw [byteAt_setPc, byteAt_storeLE, if_neg (by omega)]

/-! ### The pc (R97, R99) -/

/-- The pc of a completed branch, whatever its condition (R170). -/
theorem pc_of_branch {i : Instr} {s t : State} {imm13 : BitVec 13} {test : Bool} {P : Prop} [Decidable P]
    (hexec : exec i s = .next (setPc s (if test then s.pc + sext13 imm13 else s.pc + 4#32)))
    (htest : test = true ↔ P) (h : exec i s = .next t) :
    t.pc = if P then BitVec.ofInt 32 (s.pc.toNat + imm13.toInt) else BitVec.ofNat 32 (s.pc.toNat + 4) := by
  obtain ⟨u, hu, hpc, -⟩ := transfers_of_branch hexec htest
  rw [h] at hu
  cases hu
  rw [hpc, ← nextPc_eq]
  rfl

/-- Settles O35: by the constructors; what is no branch or jump advances by 4. -/
theorem pcAfterEveryInstruction : Obligations.PcAfterEveryInstruction := by
  intro i s t h
  cases i with
  | beq => exact pc_of_branch (exec_beq ..) beq_iff_eq h
  | bne => exact pc_of_branch (exec_bne ..) bne_iff_ne h
  | blt => exact pc_of_branch (exec_blt ..) (lessSigned_iff ..) h
  | bge => exact pc_of_branch (exec_bge ..) (not_lessSigned_iff ..) h
  | bltu => exact pc_of_branch (exec_bltu ..) (lessUnsigned_iff ..) h
  | bgeu => exact pc_of_branch (exec_bgeu ..) (not_lessUnsigned_iff ..) h
  | jal => cases h; exact jalTarget_eq ..
  | jalr => cases h; exact jalrTarget_eq ..
  | lb | lh | lw | lbu | lhu => obtain ⟨-, rfl⟩ := loadWith_next h; exact nextPc_eq s
  | sb | sh | sw => obtain ⟨-, rfl⟩ := storeWith_next h; exact nextPc_eq s
  | _ => cases h; exact nextPc_eq s

/-! ### The error of an instruction (R204) -/

/-- The instruction is a load or a store of `n` bytes whose effective address is `ea` (R140, R147). -/
def Accesses (i : Instr) (s : State) (ea : Word) (n : Nat) : Prop :=
  ∃ a b : RegIdx, ∃ imm12 : BitVec 12,
    (ea = effectiveAddress s b imm12 ∧
      ((n = 1 ∧ (i = .lb a b imm12 ∨ i = .lbu a b imm12)) ∨ (n = 2 ∧ (i = .lh a b imm12 ∨ i = .lhu a b imm12)) ∨
        (n = 4 ∧ i = .lw a b imm12))) ∨
    (ea = effectiveAddress s a imm12 ∧
      ((n = 1 ∧ i = .sb a b imm12) ∨ (n = 2 ∧ i = .sh a b imm12) ∨ (n = 4 ∧ i = .sw a b imm12)))

theorem loadWith_fault {n : Nat} {extend : Word → Word} {rd rs1 : RegIdx} {imm12 : BitVec 12} {s : State} {e : Fault}
    (h : loadWith n extend rd rs1 imm12 s = .fault e) : e = .memoryOutOfBounds s.pc (effectiveAddress s rs1 imm12) n := by
  by_cases hw : InWindow s.config (effectiveAddress s rs1 imm12) n
  · rw [loadWith_of_inWindow hw] at h; cases h
  · rw [loadWith_of_not_inWindow hw] at h; cases h; rfl

theorem storeWith_fault {n : Nat} {rs1 rs2 : RegIdx} {imm12 : BitVec 12} {s : State} {e : Fault}
    (h : storeWith n rs1 rs2 imm12 s = .fault e) :
    e = .memoryOutOfBounds s.pc (effectiveAddress s rs1 imm12) n := by
  by_cases hw : InWindow s.config (effectiveAddress s rs1 imm12) n
  · rw [storeWith_of_inWindow hw] at h; cases h
  · rw [storeWith_of_not_inWindow hw] at h; cases h; rfl

/-- The error carries the effective address and the width of the load or store that raised it (D16). -/
theorem accesses_of_exec_fault {i : Instr} {s : State} {ipc ea : Word} {n : Nat}
    (h : exec i s = .fault (.memoryOutOfBounds ipc ea n)) : Accesses i s ea n := by
  cases i with
  | lb rd rs1 imm12 | lh rd rs1 imm12 | lw rd rs1 imm12 | lbu rd rs1 imm12 | lhu rd rs1 imm12 =>
    cases loadWith_fault h
    exact ⟨rd, rs1, imm12, .inl ⟨rfl, by simp⟩⟩
  | sb rs1 rs2 imm12 | sh rs1 rs2 imm12 | sw rs1 rs2 imm12 =>
    cases storeWith_fault h
    exact ⟨rs1, rs2, imm12, .inr ⟨rfl, by simp⟩⟩
  | _ => cases h

end Sys2Proof
end

section
/-! PROOFS. The step (40_execution_engine.md R90 to R98; 60_exceptions.md): its composition, its five outcomes, what each error
carries, and what a step that completes leaves unchanged. -/

namespace Sys2Proof

open Sys2Proof.Machine Sys2Proof.Claims

/-! ### The force of `x[0]` is seen by nothing else -/

@[simp] theorem effectiveAddress_forceZero (s : State) (rs1 : RegIdx) (imm12 : BitVec 12) :
    effectiveAddress (forceZero s) rs1 imm12 = effectiveAddress s rs1 imm12 := by
  simp [effectiveAddress]

@[simp] theorem pcAfter_forceZero (i : Instr) (s : State) : pcAfter i (forceZero s) = pcAfter i s := by
  cases i <;> simp only [pcAfter, readReg_forceZero, forceZero_pc]

/-! ### The composition (R90) and the configuration (R33) -/

/-- A word at the pc in the window is what the fetch reads, so the step runs its instruction (R93 to R95). -/
theorem fetchInstr_of_inWindow {s : State} {i : Instr} (hw : InWindow s.config s.pc 4)
    (hd : decode (byteAt s (s.pc.toNat + 3) ++ byteAt s (s.pc.toNat + 2) ++ byteAt s (s.pc.toNat + 1) ++
      byteAt s s.pc.toNat) = .ok i) : fetchInstr s = .ok i :=
  (fetchInstr_eq_ok_iff s i).2 ⟨_, fetchWord_of_inWindow hw, by rw [loadLE_four, hd]⟩

/-- Settles O27: the last force is `retire`, outcome by outcome. -/
theorem stepRunsTheDecodedInstruction : Obligations.StepRunsTheDecodedInstruction := by
  intro s i hc hw hd
  rw [step_of_fetched hc (fetchInstr_of_inWindow hw hd)]
  cases exec i (forceZero s) <;> rfl

/-- No instruction changes the configuration, and neither does the force. -/
theorem step_next_config {s t : State} (h : step s = .next t) : t.config = s.config := by
  obtain ⟨-, i, u, -, hexec, rfl⟩ := step_next h
  obtain ⟨-, -, hconfig, -⟩ := oneWriteEachInstruction i _ u hexec
  exact hconfig

/-- The construction succeeds exactly on a valid configuration and an image that fits (D4, D21). -/
theorem construct_isSome_iff (c : MemConfig) (image : List Byte) :
    (construct c image).isSome = true ↔ ConfigValid c ∧ image.length ≤ c.capacity := by
  unfold construct bulkInit
  by_cases hc : ConfigValid c
  · by_cases hlen : image.length ≤ c.capacity
    · rw [if_pos hc, if_pos hlen]
      exact iff_of_true rfl ⟨hc, hlen⟩
    · rw [if_pos hc, if_neg hlen]
      exact iff_of_false Bool.false_ne_true fun h => hlen h.2
  · rw [if_neg hc]
    exact iff_of_false Bool.false_ne_true fun h => hc h.1

/-- Settles O28: the constraint is `ConfigValid`, which the step and the construction check. -/
theorem configurationCheckedAndFixed : Obligations.ConfigurationCheckedAndFixed := by
  refine ⟨fun s hbad => step_of_invalid hbad, fun c image => ?_, fun _ _ => step_next_config⟩
  rw [construct_isSome_iff, and_assoc, and_assoc]
  rfl

/-! ### The five outcomes (R200, R208) -/

/-- Fetch and decode raise `Fetch(OutOfBounds)` exactly when the fetch does not read, with the pc and 4 as its fields. -/
theorem fetchInstr_eq_fetchOutOfBounds_iff (s : State) (ipc : Word) (n : Nat) :
    fetchInstr s = .error (.fetchOutOfBounds ipc n) ↔ ipc = s.pc ∧ n = 4 ∧ ¬InWindow s.config s.pc 4 := by
  have hnone : fetchWord s = none ↔ ¬InWindow s.config s.pc 4 := by
    by_cases hw : InWindow s.config s.pc 4
    · exact iff_of_false (by simp [fetchWord_of_inWindow hw]) (not_not_intro hw)
    · exact iff_of_true (fetchWord_of_not_inWindow hw) hw
  rw [fetchInstr_eq_error_iff, hnone]
  constructor
  · rintro (⟨hw, h⟩ | ⟨w, -, -, h⟩ | ⟨w, -, -, h⟩)
    · cases h; exact ⟨rfl, rfl, hw⟩
    · cases h
    · cases h
  · rintro ⟨rfl, rfl, hw⟩
    exact .inl ⟨hw, rfl⟩

/-- The step's `Fetch(OutOfBounds)`: the pc, 4, and bytes that are not all in the window (R201). -/
theorem step_eq_fetchOutOfBounds_iff {s : State} (hc : ConfigValid s.config) (ipc : Word) (n : Nat) :
    step s = .fault (.fetchOutOfBounds ipc n) ↔
      ipc = s.pc ∧ n = 4 ∧ (s.pc.toNat < s.config.lower ∨ s.config.upper < s.pc.toNat + 3) := by
  have hout : ¬InWindow s.config s.pc 4 ↔ s.pc.toNat < s.config.lower ∨ s.config.upper < s.pc.toNat + 3 := by
    omega
  rw [step_eq_fault_iff_fetchInstr hc (fun _ _ _ => Fault.noConfusion), fetchInstr_eq_fetchOutOfBounds_iff, hout]

/-- Settles O29: some fields exist exactly when the bytes are outside the window. -/
theorem fetchOutOfBoundsExactly : Obligations.FetchOutOfBoundsExactly := by
  intro s hc
  simp only [step_eq_fetchOutOfBounds_iff hc, exists_and_left, exists_eq_left]

/-- Everything an error says, whatever raised it (R205, R208): an error of fetch and decode, or a fetched instruction's access
outside the window. -/
theorem step_fault_cases {s : State} {e : Fault} (h : step s = .fault e) :
    e = .fetchOutOfBounds s.pc 4 ∨
    (∃ w, fetchWord s = some w ∧ e = .unsupportedOpcode s.pc w) ∨
    (∃ w, fetchWord s = some w ∧ e = .illegalEncoding s.pc w) ∨
    (∃ i ea n, fetchInstr s = .ok i ∧ Accesses i s ea n ∧ (n = 1 ∨ n = 2 ∨ n = 4) ∧ ¬InWindow s.config ea n ∧
      e = .memoryOutOfBounds s.pc ea n) := by
  obtain ⟨-, hfetch | ⟨i, hi, hexec⟩⟩ := step_fault h
  · obtain ⟨-, rfl⟩ | ⟨w, hw, -, rfl⟩ | ⟨w, hw, -, rfl⟩ := (fetchInstr_eq_error_iff s e).1 hfetch
    · exact .inl rfl
    · exact .inr (.inl ⟨w, hw, rfl⟩)
    · exact .inr (.inr (.inl ⟨w, hw, rfl⟩))
  · obtain ⟨ea, n, hn, hout, rfl⟩ := exec_fault_cases hexec
    have haccess : Accesses i s ea n := by
      simpa only [Accesses, effectiveAddress_forceZero] using accesses_of_exec_fault hexec
    exact .inr (.inr (.inr ⟨i, ea, n, hi, haccess, hn, hout, rfl⟩))

/-- In a valid configuration a step is never refused (R200). -/
theorem step_ne_refused {s : State} (hc : ConfigValid s.config) (r : Refusal) : step s ≠ .refused r := by
  intro h
  cases hf : fetchInstr s with
  | error e => rw [step_of_error hc hf] at h; cases h
  | ok i =>
    rw [step_of_fetched hc hf] at h
    cases he : exec i (forceZero s) with
    | next u => rw [he] at h; cases h
    | fault e => rw [he] at h; cases h
    | refused q => exact exec_ne_refused i _ q he

/-- Settles O32: a completed step has code 0, and each error its own code. -/
theorem outcomesAreTheFive : Obligations.OutcomesAreTheFive := by
  intro s hc
  cases h : step s with
  | next t => exact .inl ⟨t, rfl, rfl⟩
  | refused r => exact absurd h (step_ne_refused hc r)
  | fault e =>
    obtain rfl | ⟨w, -, rfl⟩ | ⟨w, -, rfl⟩ | ⟨-, ea, n, -, -, -, -, rfl⟩ := step_fault_cases h
    · exact .inr (.inl ⟨rfl, rfl⟩)
    · exact .inr (.inr (.inl ⟨w, rfl, rfl⟩))
    · exact .inr (.inr (.inr (.inl ⟨w, rfl, rfl⟩)))
    · exact .inr (.inr (.inr (.inr ⟨ea, n, rfl, rfl⟩)))

/-- Settles O33: the fields of the four errors, case by case. -/
theorem errorsCarryTheirFields : Obligations.ErrorsCarryTheirFields := by
  intro s e h
  obtain rfl | ⟨w, hw, rfl⟩ | ⟨w, hw, rfl⟩ | ⟨-, ea, n, -, -, hn, -, rfl⟩ := step_fault_cases h
  · exact ⟨rfl, rfl⟩
  · exact ⟨rfl, hw⟩
  · exact ⟨rfl, hw⟩
  · exact ⟨rfl, hn⟩

/-- A fetch that reads is inside the window (R93). -/
theorem inWindow_of_fetchWord {s : State} {w : Word} (h : fetchWord s = some w) : InWindow s.config s.pc 4 := by
  by_contra hw
  rw [fetchWord_of_not_inWindow hw] at h
  cases h

/-- Settles O34: of the four cases of an error only the last is a memory error, and its word was fetched and legal. -/
theorem memoryErrorComesLast : Obligations.MemoryErrorComesLast := by
  intro s ipc ea n h
  obtain h | ⟨w, -, h⟩ | ⟨w, -, h⟩ | ⟨i, ea, n, hi, haccess, hn, hout, h⟩ := step_fault_cases h
  · cases h
  · cases h
  · cases h
  · cases h
    obtain ⟨w, hw, hd⟩ := (fetchInstr_eq_ok_iff s i).1 hi
    exact ⟨rfl, hn, hout, inWindow_of_fetchWord hw, w, i, hw, hd, haccess⟩

/-! ### Memory during steps (R35, R45, R55) -/

/-- The stores by name. -/
theorem isStore_iff (i : Instr) :
    IsStore i ↔ ∃ rs1 rs2 imm12, i = .sb rs1 rs2 imm12 ∨ i = .sh rs1 rs2 imm12 ∨ i = .sw rs1 rs2 imm12 := by
  cases i <;> simp [IsStore]

/-- Settles O39: only the third shape of a completed instruction touches the memory, and it is a store's. -/
theorem onlyStoresWriteMemory : Obligations.OnlyStoresWriteMemory := by
  intro s t i h hi hnot
  obtain ⟨-, j, u, hj, hexec, rfl⟩ := step_next h
  obtain rfl : i = j := by rw [hi] at hj; cases hj; rfl
  obtain ⟨-, rd, v, p, -, rfl⟩ | ⟨-, p, -, rfl⟩ | ⟨hstore, -⟩ := exec_next_cases hexec
  · simp
  · rfl
  · obtain ⟨rs1, rs2, imm12, hstore⟩ := (isStore_iff i).1 hstore
    have hnone := hnot rs1 rs2 imm12
    tauto

/-- Settles O40: the stored bytes lie in the window. -/
theorem outsideWindowNeverWritten : Obligations.OutsideWindowNeverWritten := by
  intro s t a h hout
  obtain ⟨-, i, u, -, hexec, rfl⟩ := step_next h
  obtain ⟨-, rd, v, p, -, rfl⟩ | ⟨-, p, -, rfl⟩ | ⟨-, b, v, n, hn, ⟨hlo, hhi⟩, rfl⟩ := exec_next_cases hexec
  · simp
  · rfl
  · have hmiss : ¬(b.toNat ≤ a ∧ a < b.toNat + n) := by
      rw [forceZero_config] at hlo hhi
      omega
    rw [byteAt_forceZero, byteAt_setPc, byteAt_storeLE, if_neg hmiss, byteAt_forceZero]

end Sys2Proof
end

section
/-! PROOFS. The invariant (10_state.md R22, R29, R33): `x[0]`, the configuration, the canonical form and the storage bound follow
from the three shapes of a completed instruction, and the pc stays even because a decoded offset is even and JALR clears bit 0. -/

namespace Sys2Proof

open Sys2Proof.Machine Sys2Proof.Claims

/-! ### Even addresses (R29) -/

/-- Bit 0 of a sum is the exclusive or of the two bits: nothing is carried into it. -/
theorem getLsbD_zero_add (a b : Word) : (a + b).getLsbD 0 = (a.getLsbD 0 ^^ b.getLsbD 0) := by
  rw [BitVec.getLsbD_add (by decide)]
  simp

theorem add_even {a b : Word} (ha : a.getLsbD 0 = false) (hb : b.getLsbD 0 = false) :
    (a + b).getLsbD 0 = false := by
  rw [getLsbD_zero_add, ha, hb]
  rfl

/-- Sign extension keeps bit 0 (R8). -/
theorem getLsbD_zero_signExtend {n : Nat} (b : BitVec n) (hn : 0 < n) :
    (b.signExtend 32).getLsbD 0 = b.getLsbD 0 := by
  rw [BitVec.getLsbD_signExtend]
  simp [hn]

/-- A well-formed instruction leaves an even pc from an even one. -/
theorem nextPcOf_even {i : Instr} {s : State} {p : Word} (hwf : i.wellFormed = true) (hs : s.pc.getLsbD 0 = false)
    (h : NextPcOf i s p) : p.getLsbD 0 = false := by
  obtain rfl | ⟨rs1, rs2, imm13, hi, rfl⟩ | ⟨rd, imm21, rfl, rfl⟩ | ⟨rd, rs1, imm12, rfl, rfl⟩ := h
  · exact add_even hs (by decide)
  · have himm : imm13.getLsbD 0 = false := by
      obtain rfl | rfl | rfl | rfl | rfl | rfl := hi <;> simpa [Instr.wellFormed] using hwf
    exact add_even hs ((getLsbD_zero_signExtend imm13 (by decide)).trans himm)
  · have himm : imm21.getLsbD 0 = false := by simpa [Instr.wellFormed] using hwf
    exact add_even hs ((getLsbD_zero_signExtend imm21 (by decide)).trans himm)
  · rw [BitVec.getLsbD_and]
    exact Bool.and_false _

/-! ### One instruction -/

/-- A completed, well-formed instruction keeps every part of the invariant. -/
theorem inv_of_exec_next {i : Instr} {s t : State} (hs : s.Inv) (hwf : i.wellFormed = true) (h : exec i s = .next t) :
    t.Inv := by
  obtain ⟨hconfig, hzero, hmemWf, hwithin, heven⟩ := hs
  obtain ⟨-, rd, v, p, hp, rfl⟩ | ⟨-, p, hp, rfl⟩ | ⟨-, a, v, n, hn, ⟨hlo, hhi⟩, rfl⟩ := exec_next_cases h
  · exact
      { config := by simpa using hconfig
        zero := (writeReg_regs_zero s rd v).trans hzero
        memWf := by simpa using hmemWf
        memWithin := by simpa using hwithin
        pcEven := nextPcOf_even hwf heven hp }
  · exact ⟨hconfig, hzero, hmemWf, hwithin, nextPcOf_even hwf heven hp⟩
  · have hfits : a.toNat + n ≤ s.config.capacity := by omega
    exact ⟨hconfig, hzero, Memory.storeLE_wf hmemWf .., Memory.storeLE_within hwithin hfits _,
      add_even heven (by decide)⟩

/-- A state that meets the invariant is not changed by the force of `x[0]`. -/
theorem forceZero_of_inv {s : State} (h : s.Inv) : forceZero s = s :=
  forceZero_of_zero h.zero

/-- Settles O43: the force changes nothing before or after, and a fetched instruction is well-formed (O3). -/
theorem stepKeepsTheInvariant : Obligations.StepKeepsTheInvariant := by
  intro s t hs h
  obtain ⟨-, i, u, hi, hexec, rfl⟩ := step_next h
  obtain ⟨w, -, hd⟩ := (fetchInstr_eq_ok_iff s i).1 hi
  rw [forceZero_of_inv hs] at hexec
  have hu : u.Inv := inv_of_exec_next hs (wellFormed_of_decode hd) hexec
  rw [forceZero_of_inv hu]
  exact hu

end Sys2Proof
end

section
/-! PROOFS. Memory (20_memory.md) and construction (10_state.md section 6, 70_reset_and_hazards.md section 1): the loader's write,
the window check on unbounded integers, reads of a stored value, and the uniqueness of the canonical form. -/

namespace Sys2Proof

open Sys2Proof.Machine Sys2Proof.Claims

/-! ### The canonical form (log 2) -/

/-- The first address of a canonical memory is below every other listed one. -/
theorem get_tail_eq_none {k a : Nat} {b : Byte} {m : Memory} (h : Memory.wf ((k, b) :: m)) (ha : a ≤ k) :
    Memory.get m a = none :=
  Memory.get_eq_none_of_lt fun c hc => Nat.lt_of_le_of_lt ha ((List.pairwise_cons.1 h).1 c hc)

/-- Two non-empty canonical memories that read the same begin with the same address: a smaller one is written in one only. -/
theorem head_not_lt_of_get_eq {k l : Nat} {b c : Byte} {m m' : Memory} (hm' : Memory.wf ((l, c) :: m'))
    (h : ∀ a, Memory.get ((k, b) :: m) a = Memory.get ((l, c) :: m') a) : ¬k < l := by
  intro hlt
  have hnone : Memory.get ((l, c) :: m') k = none := by
    rw [Memory.get, if_neg (Nat.ne_of_lt hlt), get_tail_eq_none hm' (Nat.le_of_lt hlt)]
  rw [← h k, Memory.get, if_pos rfl] at hnone
  cases hnone

/-- Settles O51: by induction on one memory; the heads agree, and so do the tails, where the head's address is not written. -/
theorem canonicalMemoriesAreEqual : Obligations.CanonicalMemoriesAreEqual := by
  intro m
  induction m with
  | nil =>
    rintro (_ | ⟨⟨l, c⟩, m'⟩) - - h
    · rfl
    · simpa [Memory.get] using h l
  | cons d m ih =>
    obtain ⟨k, b⟩ := d
    rintro (_ | ⟨⟨l, c⟩, m'⟩) hm hm' h
    · simpa [Memory.get] using h k
    · have hkl : k = l := Nat.le_antisymm (Nat.not_lt.1 (head_not_lt_of_get_eq hm fun a => (h a).symm))
        (Nat.not_lt.1 (head_not_lt_of_get_eq hm' h))
      subst hkl
      have hbc : b = c := by simpa [Memory.get] using h k
      have htail : m = m' := by
        refine ih m' (List.pairwise_cons.1 hm).2 (List.pairwise_cons.1 hm').2 fun a => ?_
        by_cases ha : a = k
        · rw [get_tail_eq_none hm (Nat.le_of_eq ha), get_tail_eq_none hm' (Nat.le_of_eq ha)]
        · simpa [Memory.get, ha] using h a
      rw [hbc, htail]

/-! ### The loader and the construction (R54, R230) -/

theorem bulkInit_of_le {c : MemConfig} {image : List Byte} (m : Memory) (h : image.length ≤ c.capacity) :
    bulkInit c image m = some (Memory.setBytes m 0 image) := by
  rw [bulkInit, if_pos h]

/-- Settles O46: the loader's write is read back inside the image and changes nothing from its length on. -/
theorem bulkInitWritesTheImage : Obligations.BulkInitWritesTheImage := by
  intro c image m
  refine ⟨fun hlong => if_neg (Nat.not_le.2 hlong), fun hfits => ⟨_, bulkInit_of_le m hfits, fun k hk => ?inside,
    fun a ha => ?outside⟩⟩
  case inside =>
    rw [Memory.get_setBytes, dif_pos (by omega)]
    simp
  case outside => rw [Memory.get_setBytes, dif_neg (by omega)]

/-- Everything a construction that succeeds has done (R230). -/
theorem construct_eq_some {c : MemConfig} {image : List Byte} {s : State} (h : construct c image = some s) :
    ConfigValid c ∧ image.length ≤ c.capacity ∧
      s = { pc := 0#32, regs := Vector.replicate 32 0#32, mem := Memory.setBytes [] 0 image, config := c } := by
  have hsome : (construct c image).isSome = true := by rw [h]; rfl
  obtain ⟨hc, hlen⟩ := (construct_isSome_iff c image).1 hsome
  rw [construct, if_pos hc, bulkInit_of_le [] hlen] at h
  exact ⟨hc, hlen, (Option.some.inj h).symm⟩

/-- A register of a state whose registers are all 0 (D2). -/
theorem readReg_of_regs_replicate {s : State} (h : s.regs = Vector.replicate 32 0#32) (r : RegIdx) :
    readReg s r = 0#32 := by
  simp [readReg, h]

/-- Settles O45: the fields of the constructed state, and the loader's write on a memory with nothing written. -/
theorem constructionLoadsTheImage : Obligations.ConstructionLoadsTheImage := by
  intro c image s h
  obtain ⟨hc, hlen, rfl⟩ := construct_eq_some h
  refine ⟨rfl, readReg_of_regs_replicate rfl, rfl, ?inv, fun k hk => ?inside, fun a ha => ?outside⟩
  case inv =>
    exact
      { config := hc
        zero := by simp
        memWf := Memory.setBytes_wf List.Pairwise.nil 0 image
        memWithin := Memory.setBytes_within (by simp) (by simpa using hlen)
        pcEven := by simp }
  case inside =>
    simp only [byteAt]
    rw [Memory.get_setBytes, dif_pos (by omega)]
    simp
  case outside =>
    simp only [byteAt]
    rw [Memory.get_setBytes, dif_neg (by omega)]
    rfl

/-- Settles O42: the reference configuration is valid, and nothing has been written. -/
theorem resetMeetsTheInvariant : Obligations.ResetMeetsTheInvariant where
  config := by decide
  zero := rfl
  memWf := List.Pairwise.nil
  memWithin := by simp [State.reset]
  pcEven := rfl

/-- Settles O44: every register is 0, and an unwritten byte is its `INIT_MEM`. -/
theorem resetValues : Obligations.ResetValues :=
  ⟨rfl, fun k hk => by simp [State.reset], readReg_of_regs_replicate rfl, fun _ => rfl⟩

/-! ### The window check (R41, R44) -/

theorem memRead_isSome_iff (s : State) (a : Word) (n : Nat) :
    (memRead s a n).isSome = true ↔ InWindow s.config a n := by
  by_cases hw : InWindow s.config a n
  · exact iff_of_true (by rw [memRead_of_inWindow hw]; rfl) hw
  · exact iff_of_false (by rw [memRead_of_not_inWindow hw]; exact Bool.false_ne_true) hw

theorem memWrite_isSome_iff (s : State) (a : Word) (n : Nat) (v : Word) :
    (memWrite s a n v).isSome = true ↔ InWindow s.config a n := by
  by_cases hw : InWindow s.config a n
  · exact iff_of_true (by rw [memWrite_of_inWindow v hw]; rfl) hw
  · exact iff_of_false (by rw [memWrite_of_not_inWindow v hw]; exact Bool.false_ne_true) hw

/-- Settles O47: both accesses check `InWindow`, whose last byte a valid configuration keeps inside the storage. -/
theorem windowCheckExactly : Obligations.WindowCheckExactly := by
  intro s a v n hc hn
  have hwindow : InWindow s.config a n ↔ s.config.lower ≤ a.toNat ∧ a.toNat + n ≤ s.config.upper + 1 := by omega
  refine ⟨(memRead_isSome_iff s a n).trans hwindow, (memWrite_isSome_iff s a n v).trans hwindow, fun hread k hk => ?_⟩
  have hin : s.config.lower ≤ a.toNat ∧ a.toNat + n ≤ s.config.upper + 1 := hwindow.1 ((memRead_isSome_iff s a n).1 hread)
  omega

/-! ### Reads of a stored value (R42, R43, R47, R49) -/

/-- A read inside the bytes of a store gives the corresponding bytes of the value, zero-extended. -/
theorem loadLE_inside_storeLE (s : State) (a : Nat) (v : Word) {k n m : Nat} (h : k + n ≤ m) (hm : m ≤ 4) :
    loadLE { s with mem := storeLE s.mem a v m } (a + k) n = BitVec.ofNat 32 (v.toNat / 2 ^ (8 * k) % 2 ^ (8 * n)) := by
  have hfield : BitVec.ofNat 32 (v.toNat / 2 ^ (8 * k) % 2 ^ (8 * n)) = (v.extractLsb' (8 * k) (8 * n)).setWidth 32 := by
    rw [← toNat_field, BitVec.ofNat_toNat]
  rw [hfield]
  apply BitVec.eq_of_getLsbD_eq
  intro i hi
  rw [getLsbD_loadLE _ _ _ _ (by omega), byteAt_storeLE, BitVec.getLsbD_setWidth, BitVec.getLsbD_extractLsb']
  by_cases hin : i < 8 * n
  · have hstored : a ≤ a + k + i / 8 ∧ a + k + i / 8 < a + m := by omega
    have hbyte : a + k + i / 8 - a = k + i / 8 := by omega
    have hbit : 8 * (k + i / 8) + i % 8 = 8 * k + i := by omega
    have hlow : i % 8 < 8 := by omega
    rw [if_pos hstored, hbyte, byteOf, BitVec.getLsbD_extractLsb', hbit]
    simp [hin, hi, hlow]
  · simp [hin]

/-- The checked read of `n` bytes from byte `k` of a stored word on: the window holds them, and the address does not wrap. -/
theorem memRead_inside_memWrite {s t : State} {a v : Word} (hc : ConfigValid s.config) (h : memWrite s a 4 v = some t)
    {k n : Nat} (hpos : 0 < n) (hkn : k + n ≤ 4) :
    memRead t (a + BitVec.ofNat 32 k) n = some (BitVec.ofNat 32 (v.toNat / 2 ^ (8 * k) % 2 ^ (8 * n))) := by
  obtain ⟨⟨hlo, hhi⟩, rfl⟩ := memWrite_eq_some h
  have haddr : (a + BitVec.ofNat 32 k).toNat = a.toNat + k := by
    rw [BitVec.toNat_add, BitVec.toNat_ofNat]
    omega
  have hw : InWindow s.config (a + BitVec.ofNat 32 k) n := by
    rw [InWindow, haddr]
    omega
  rw [memRead_of_inWindow (s := { s with mem := storeLE s.mem a.toNat v 4 }) hw, haddr,
    loadLE_inside_storeLE s a.toNat v hkn (by decide)]

/-- A word is its own residue. -/
theorem ofNat_toNat_mod (v : Word) : BitVec.ofNat 32 (v.toNat % 2 ^ 32) = v := by
  rw [Nat.mod_eq_of_lt v.isLt, BitVec.ofNat_toNat, BitVec.setWidth_eq]

/-- Settles O48: the five reads are the bytes 0, 1, 2 to 3, 1 to 2 and 0 to 3 of the stored word. -/
theorem mixedWidthAccesses : Obligations.MixedWidthAccesses := by
  intro s t a v hc h
  have hbase : a + BitVec.ofNat 32 0 = a := BitVec.add_zero a
  have htop : v.toNat / 2 ^ 16 % 2 ^ 16 = v.toNat / 2 ^ 16 := by
    rw [← toNat_field, toNat_top_field v rfl]
  have hword : BitVec.ofNat 32 (v.toNat / 2 ^ (8 * 0) % 2 ^ (8 * 4)) = v := by
    rw [Nat.mul_zero, Nat.pow_zero, Nat.div_one]
    exact ofNat_toNat_mod v
  refine ⟨?byte0, ?byte1, ?bytes23, ?bytes12, ?bytes0123⟩
  case byte0 => simpa [hbase] using memRead_inside_memWrite hc h (k := 0) (n := 1) (by decide) (by decide)
  case byte1 => exact memRead_inside_memWrite hc h (by decide) (by decide)
  case bytes23 =>
    rw [← htop]
    exact memRead_inside_memWrite hc h (by decide) (by decide)
  case bytes12 => exact memRead_inside_memWrite hc h (by decide) (by decide)
  case bytes0123 =>
    have hread := memRead_inside_memWrite hc h (k := 0) (n := 4) (by decide) (by decide)
    rwa [hbase, hword] at hread

/-! ### Loads and fetches after a store (R56, R59) -/

/-- A store leaves the registers, so the same operands address the same bytes. -/
theorem effectiveAddress_congr {s t : State} (h : s.regs = t.regs) (rs1 : RegIdx) (imm12 : BitVec 12) :
    effectiveAddress s rs1 imm12 = effectiveAddress t rs1 imm12 := by
  rw [effectiveAddress, effectiveAddress, readReg_congr h]

/-- A load of the width of the last store at the same operands reads the low bytes of the stored value, zero-extended. -/
theorem loadWith_after_storeWith {n : Nat} {rd rs1 rs2 : RegIdx} {imm12 : BitVec 12} {s t : State} (hn : n ≤ 4)
    (hrd : rd ≠ 0#5) (h : storeWith n rs1 rs2 imm12 s = .next t) :
    ∃ u, loadWith n (fun v => v) rd rs1 imm12 t = .next u ∧
      readReg u rd = BitVec.ofNat 32 ((readReg s rs2).toNat % 2 ^ (8 * n)) := by
  obtain ⟨hw, ht⟩ := storeWith_next h
  have haddr : effectiveAddress t rs1 imm12 = effectiveAddress s rs1 imm12 :=
    effectiveAddress_congr (by rw [ht]; rfl) rs1 imm12
  have hwt : InWindow t.config (effectiveAddress t rs1 imm12) n := by
    rw [haddr, ht]
    exact hw
  refine ⟨_, loadWith_of_inWindow hwt, ?_⟩
  rw [readReg_setPc, readReg_writeReg_same _ _ _ hrd, haddr, ht, loadLE_setPc]
  simpa using loadLE_inside_storeLE s (effectiveAddress s rs1 imm12).toNat (readReg s rs2) (k := 0)
    (Nat.le_of_eq (Nat.zero_add n)) hn

/-- Settles O49: the load after the store at the widths 4, 2 and 1. -/
theorem loadReturnsTheLastStore : Obligations.LoadReturnsTheLastStore := by
  intro rd rs1 rs2 imm12 s t hrd
  refine ⟨fun h => ?word, fun h => ?half, fun h => ?byte⟩
  case word =>
    obtain ⟨u, hu, hval⟩ := loadWith_after_storeWith (by decide) hrd h
    exact ⟨u, hu, hval.trans (ofNat_toNat_mod _)⟩
  case half =>
    obtain ⟨u, hu, hval⟩ := loadWith_after_storeWith (by decide) hrd h
    exact ⟨u, hu, by rw [hval, BitVec.toNat_ofNat]; omega⟩
  case byte =>
    obtain ⟨u, hu, hval⟩ := loadWith_after_storeWith (by decide) hrd h
    exact ⟨u, hu, by rw [hval, BitVec.toNat_ofNat]; omega⟩

/-- A read depends on the configuration and on the memory only. -/
theorem memRead_congr {s t : State} (hmem : s.mem = t.mem) (hconfig : s.config = t.config) (a : Word) (n : Nat) :
    memRead s a n = memRead t a n := by
  rw [memRead, memRead, hconfig, loadLE_congr fun x _ _ => byteAt_congr hmem x]

/-- Settles O50: the fetch is the read of four bytes at the address stored to. -/
theorem storeIsSeenByFetch : Obligations.StoreIsSeenByFetch := by
  intro rs1 rs2 imm12 s t u h hmem hconfig hpc
  obtain ⟨hw, ht⟩ := storeWith_next h
  have hread : memRead t (effectiveAddress s rs1 imm12) 4 = some (readReg s rs2) := by
    have hwt : InWindow t.config (effectiveAddress s rs1 imm12) 4 := by
      rw [ht]
      exact hw
    rw [memRead_of_inWindow hwt, ht, loadLE_setPc, loadLE_storeLE _ _ _ _ (Nat.le_refl 4)]
    simp
  rw [fetchWord, hpc, memRead_congr hmem hconfig, hread]

end Sys2Proof
end

section
/-! PROOFS. Control transfer across steps (45_control_transfer.md section 3, 70_reset_and_hazards.md section 3): a branch or jump
completes whatever its target, and the target is first looked at by the next fetch. -/

namespace Sys2Proof

open Sys2Proof.Machine Sys2Proof.Claims

/-- A branch or jump completes, and leaves the memory and the configuration (R170, R178 to R180). -/
theorem exec_transfer {i : Instr} (h : IsTransfer i) (s : State) :
    ∃ t, exec i s = .next t ∧ t.mem = s.mem ∧ t.config = s.config := by
  cases i with
  | beq | bne | blt | bge | bltu | bgeu => exact ⟨_, rfl, rfl, rfl⟩
  | jal => exact ⟨_, exec_jal .., by simp, by simp⟩
  | jalr => exact ⟨_, exec_jalr .., by simp, by simp⟩
  | _ => exact h.elim

/-- A step that fetches a branch or jump completes with the pc at `pcAfter`, whatever lies there (R180, D7). -/
theorem step_transfer {s : State} {i : Instr} (hc : ConfigValid s.config) (hi : fetchInstr s = .ok i) (h : IsTransfer i) :
    ∃ t, step s = .next t ∧ t.pc = pcAfter i s ∧ t.mem = s.mem ∧ t.config = s.config := by
  obtain ⟨u, hu, hmem, hconfig⟩ := exec_transfer h (forceZero s)
  have hpc : u.pc = pcAfter i s := by
    rw [pcAfterEveryInstruction i _ u hu, pcAfter_forceZero]
  exact ⟨forceZero u, by rw [step_of_fetched hc hi, hu]; rfl, hpc, hmem, hconfig⟩

/-- One step is a run of length 1. -/
theorem runsTo_one {s t : State} (h : step s = .next t) : RunsTo 1 s t :=
  run_of_next 0 h

/-- Settles O53: the next step's fetch raises the error exactly outside the window, and reads the four bytes inside it. -/
theorem badTargetFailsAtTheNextFetch : Obligations.BadTargetFailsAtTheNextFetch := by
  intro s i hc hi htransfer
  obtain ⟨t, hstep, hpc, hmem, hconfig⟩ := step_transfer hc hi htransfer
  refine ⟨t, hstep, hpc, fun hout => ⟨runsTo_one hstep, ?fails⟩, fun hlo hhi => ?fetches⟩
  case fails =>
    rw [← hconfig] at hc hout
    exact (step_eq_fetchOutOfBounds_iff hc t.pc 4).2 ⟨rfl, rfl, hout⟩
  case fetches =>
    rw [← hconfig] at hlo hhi
    rw [fetchWord_of_inWindow ⟨hlo, hhi⟩, loadLE_congr fun x _ _ => byteAt_congr hmem x, loadLE_four]

/-- The word 0x0000006F jumps to its own address and links nowhere (R178). -/
theorem decode_selfJump : decode 0x0000006F#32 = .ok (.jal 0 0) := by
  obtain ⟨hjal, -⟩ := jumpAndLink
  exact hjal _ rfl

theorem exec_selfJump (s : State) : exec (.jal 0 0) s = .next s := by
  have hpc : s.pc + sext21 0 = s.pc := BitVec.add_zero s.pc
  rw [exec_jal, hpc]
  rfl

/-- From a state that meets the invariant, the step of the self-jump leads to the same state (R237 (c)). -/
theorem step_selfJump {s : State} (hs : s.Inv) (hw : fetchWord s = some 0x0000006F#32) : step s = .next s := by
  have hi : fetchInstr s = .ok (.jal 0 0) := (fetchInstr_eq_ok_iff s _).2 ⟨_, hw, decode_selfJump⟩
  rw [step_of_fetched hs.config hi, exec_selfJump, forceZero_of_inv hs, retire, forceZero_of_inv hs]

/-- Settles O52: by induction on the number of steps, each of which leads to the same state. -/
theorem selfJumpNeverEnds : Obligations.SelfJumpNeverEnds := by
  intro s hs hw n
  induction n with
  | zero => rfl
  | succ n ih => exact (run_of_next n (step_selfJump hs hw)).trans ih

end Sys2Proof
end

section
/-! PROOFS. Noninterference (20_memory.md R40, R45, R55): two states that agree in the window fetch the same word, and the shared
operations of the meanings take them to the same outcome; an instruction is one of these operations. -/

namespace Sys2Proof.Machine

section
variable {s t : State} (h : AgreeInWindow s t)
include h

/-! ### What agreeing states share -/

theorem AgreeInWindow.readReg_eq (r : RegIdx) : readReg s r = readReg t r := readReg_congr h.regs r

theorem AgreeInWindow.effectiveAddress_eq (rs1 : RegIdx) (imm12 : BitVec 12) :
    effectiveAddress s rs1 imm12 = effectiveAddress t rs1 imm12 := effectiveAddress_congr h.regs rs1 imm12

/-- A checked read looks at bytes of the window only (R41, R42). -/
theorem AgreeInWindow.memRead_eq (a : Word) (n : Nat) : memRead s a n = memRead t a n := by
  unfold memRead
  rw [← h.config]
  split
  next hw =>
    obtain ⟨hlo, hhi⟩ := hw
    exact congrArg some (loadLE_congr fun x hx1 hx2 => h.bytes x (by omega) (by omega))
  next => rfl

theorem AgreeInWindow.fetchInstr_eq : fetchInstr s = fetchInstr t := by
  have hword : fetchWord s = fetchWord t := by
    rw [fetchWord, fetchWord, h.pc, h.memRead_eq]
  rw [fetchInstr, fetchInstr, hword, h.pc]

/-! ### The state operations keep the agreement -/

theorem AgreeInWindow.after_setPc (p : Word) : AgreeInWindow (setPc s p) (setPc t p) :=
  ⟨rfl, h.regs, h.config, h.bytes⟩

theorem AgreeInWindow.after_forceZero : AgreeInWindow (forceZero s) (forceZero t) :=
  ⟨h.pc, by simp [h.regs], h.config, h.bytes⟩

theorem AgreeInWindow.after_writeReg (rd : RegIdx) (v : Word) : AgreeInWindow (writeReg s rd v) (writeReg t rd v) := by
  refine ⟨by simp [h.pc], ?_, by simp [h.config], by simpa using h.bytes⟩
  unfold writeReg
  split
  · exact h.regs
  · simp [h.regs]

/-- Both states read back the stored bytes, and their own bytes elsewhere. -/
theorem AgreeInWindow.after_storeLE (a n : Nat) (v : Word) :
    AgreeInWindow { s with mem := storeLE s.mem a v n } { t with mem := storeLE t.mem a v n } := by
  refine ⟨h.pc, h.regs, h.config, fun x hlo hhi => ?_⟩
  rw [byteAt_storeLE, byteAt_storeLE, h.bytes x hlo hhi]

/-! ### The shared operations of the meanings -/

theorem AgreeInWindow.sameOutcome_completeWrite (rd : RegIdx) (v p : Word) :
    SameOutcome (completeWrite rd v p s) (completeWrite rd v p t) :=
  (h.after_writeReg rd v).after_setPc p

/-- A load reads the same value, or raises the same error (R140). -/
theorem AgreeInWindow.sameOutcome_loadWith (n : Nat) (extend : Word → Word) (rd rs1 : RegIdx) (imm12 : BitVec 12) :
    SameOutcome (loadWith n extend rd rs1 imm12 s) (loadWith n extend rd rs1 imm12 t) := by
  rw [loadWith, loadWith, h.effectiveAddress_eq, h.memRead_eq, nextPc, nextPc, h.pc]
  cases memRead t (effectiveAddress t rs1 imm12) n with
  | none => rfl
  | some v => exact h.sameOutcome_completeWrite ..

/-- A store stores the same value at the same address, or raises the same error (R147). -/
theorem AgreeInWindow.sameOutcome_storeWith (n : Nat) (rs1 rs2 : RegIdx) (imm12 : BitVec 12) :
    SameOutcome (storeWith n rs1 rs2 imm12 s) (storeWith n rs1 rs2 imm12 t) := by
  by_cases hw : InWindow t.config (effectiveAddress t rs1 imm12) n
  · have hs : InWindow s.config (effectiveAddress s rs1 imm12) n := by rwa [h.config, h.effectiveAddress_eq]
    rw [storeWith_of_inWindow hs, storeWith_of_inWindow hw, h.effectiveAddress_eq, h.readReg_eq, h.pc]
    exact (h.after_storeLE ..).after_setPc _
  · have hs : ¬InWindow s.config (effectiveAddress s rs1 imm12) n := by rwa [h.config, h.effectiveAddress_eq]
    rw [storeWith_of_not_inWindow hs, storeWith_of_not_inWindow hw, h.effectiveAddress_eq, h.pc]
    rfl

/-! ### Instructions and steps -/

/-- An instruction's result, link and target are computed from the pc and the registers alone, or it is a load or a store. -/
theorem AgreeInWindow.sameOutcome_exec (i : Instr) : SameOutcome (exec i s) (exec i t) := by
  cases i with
  | lb | lh | lw | lbu | lhu => exact h.sameOutcome_loadWith ..
  | sb | sh | sw => exact h.sameOutcome_storeWith ..
  | beq | bne | blt | bge | bltu | bgeu =>
    simp only [exec_beq, exec_bne, exec_blt, exec_bge, exec_bltu, exec_bgeu, h.pc, h.readReg_eq]
    exact h.after_setPc _
  | lui | auipc | jal | jalr =>
    simp only [exec_lui, exec_auipc, exec_jal, exec_jalr, h.pc, h.readReg_eq]
    exact h.sameOutcome_completeWrite ..
  | addi | slti | sltiu | xori | ori | andi | slli | srli | srai =>
    simp only [exec_addi, exec_slti, exec_sltiu, exec_xori, exec_ori, exec_andi, exec_slli, exec_srli, exec_srai, h.pc,
      h.readReg_eq]
    exact h.sameOutcome_completeWrite ..
  | add | sub | sll | slt | sltu | xor | srl | sra | or | and =>
    simp only [exec_add, exec_sub, exec_sll, exec_slt, exec_sltu, exec_xor, exec_srl, exec_sra, exec_or, exec_and, h.pc,
      h.readReg_eq]
    exact h.sameOutcome_completeWrite ..

end

theorem SameOutcome.after_retire {o p : Result} (h : SameOutcome o p) : SameOutcome (retire o) (retire p) := by
  cases o <;> cases p
  case next.next => exact h.after_forceZero
  all_goals exact h

/-- Settles O41: the two steps check the same configuration, fetch the same instruction and run it from states that agree. -/
theorem outsideWindowNeverRead : Obligations.OutsideWindowNeverRead := by
  intro s t h
  by_cases hs : ConfigValid s.config
  · have ht : ConfigValid t.config := by rwa [← h.config]
    cases hf : fetchInstr s with
    | error e =>
      rw [step_of_error hs hf, step_of_error ht (h.fetchInstr_eq ▸ hf)]
      rfl
    | ok i =>
      rw [step_of_fetched hs hf, step_of_fetched ht (h.fetchInstr_eq ▸ hf)]
      exact (h.after_forceZero.sameOutcome_exec i).after_retire
  · have ht : ¬ConfigValid t.config := by rwa [← h.config]
    rw [step_of_invalid hs, step_of_invalid ht]
    rfl

end Sys2Proof.Machine
end
